-- ==== Sys2Proof/Word.lean ====
section
/-! DEFINITION. The bit-vector types of the block (spec/00_scope.md R8, R9). -/

namespace Sys2Proof

/-- A register value, port value or snapshot element: an unsigned 32-bit vector (R8 `WORD_WIDTH`, R9, D1). -/
abbrev Word := BitVec 32

/-- A classified THUMB instruction word: an unsigned 16-bit vector (R8 `INSTR_WIDTH`, R9, R48). -/
abbrev Half := BitVec 16

/-- The port's 12-bit command word `CW` (R73). -/
abbrev CommandWord := BitVec 12

/-- The 5-bit logical index operand of the port, 0 to 31 (R8 `INDEX_PORT_WIDTH`, R74, D2). -/
abbrev IndexOperand := BitVec 5

/-- The five mode bits, `CPSR[4:0]` (R8 `MODE_FIELD_WIDTH`, R27). -/
abbrev ModeBits := BitVec 5

/-- A THUMB register field of three bits (the layouts R54 to R72). -/
abbrev RegField := BitVec 3

/-- A logical register index, 0 to 16 (R8 `LOGICAL_INDICES`, R19). -/
abbrev LogicalIndex := Fin 17

/-- A physical slot, 0 to 36 (R8 `PHYS_SLOTS`, R17). -/
abbrev Slot := Fin 37

end Sys2Proof
end

