-- ==== Sys2Proof/Syntax.lean ====
section
/-! DEFINITION. The syntax: processor modes, status bits, instruction formats, the caller's requests,
and `Instr`, one constructor per row of spec/opcode_table.json. -/

namespace Sys2Proof

/-- `ProcessorMode`, a closed enumeration of seven values (spec/10_state.md R15). -/
inductive ProcessorMode where
  | user | fiq | irq | svc | abt | und | system
  deriving DecidableEq, Repr

/-- The seven flag and control bits of the CPSR that have a getter and a setter (R27, R30, R73). -/
inductive StatusBit where
  | t | f | i | v | c | z | n
  deriving DecidableEq, Repr

/-- `InstructionFormat`, a closed enumeration of 19 categories, in the order of their numbers
(spec/30_encoding.md R49, R52, D11). -/
inductive InstructionFormat where
  | moveShiftedRegister
  | addSubtract
  | moveCompareAddSubtractImmediate
  | aluOperation
  | hiRegisterOperationsBranchExchange
  | pcRelativeLoad
  | loadStoreWithRegisterOffset
  | loadStoreSignExtendedByteHalfword
  | loadStoreWithImmediateOffset
  | loadStoreHalfword
  | spRelativeLoadStore
  | loadAddress
  | addOffsetToStackPointer
  | pushPopRegisters
  | multipleLoadStore
  | conditionalBranch
  | softwareInterrupt
  | unconditionalBranch
  | longBranchWithLink
  deriving DecidableEq, Repr

/-- The Op field of format 3 (R56): 00 MOV, 01 CMP, 10 ADD, 11 SUB. -/
inductive ImmediateOp where
  | mov | cmp | add | sub
  deriving DecidableEq, Repr

/-- The Op field of format 4 (R57), in the order of its codes 0000 to 1111. -/
inductive AluOp where
  | and | eor | lsl | lsr | asr | adc | sbc | ror | tst | neg | cmp | cmn | orr | mul | bic | mvn
  deriving DecidableEq, Repr

/-- The Op field of format 5 (R58): 00 ADD, 01 CMP, 10 MOV, 11 BX. -/
inductive HiOp where
  | add | cmp | mov | bx
  deriving DecidableEq, Repr

/-- The data operand that travels beside a command word (R73, R74): nothing, one word (WRITE), a
sequence of words with its length (IMPORT), or one THUMB word (CLASSIFY). -/
inductive DataOperand where
  | none
  | word (v : Word)
  | words (s : List Word)
  | half (w : Half)
  deriving DecidableEq, Repr

/-- One request of the caller (R7). R73 names two interfaces: the executor's port operations, a
command word with its data operand, and the fetch and decode pipeline's `classify(word)`, which is
handed a THUMB word as it is. -/
inductive Request where
  | command (cw : CommandWord) (data : DataOperand)
  | thumb (w : Half)
  deriving DecidableEq, Repr

/-- Why a request is refused (R11, R73, R74, R76). -/
inductive DecodeError where
  /-- The operation code is one of the reserved 1011 to 1111. -/
  | reservedOperation (op : BitVec 4)
  /-- A bit of field A that the operation does not use is not 0. -/
  | unusedFieldBits (cw : CommandWord)
  /-- SETMODE's operand is none of the seven mode codes. -/
  | notAModeCode (m : ModeBits)
  /-- GETFLAG's or SETFLAG's bit position is none of the seven. -/
  | notAFlagPosition (b : BitVec 5)
  /-- The data operand is not of the kind the operation takes (notes/assumptions/3.md). -/
  | wrongDataOperand (cw : CommandWord)
  deriving DecidableEq, Repr

/-- The instructions: one constructor per row of spec/opcode_table.json. The first 19 are THUMB words
by format, with the fields of their layouts (R54 to R72); the block's one operation on such a word is
to classify it (R6, R100). The other 23 are the port operations (R73). A field named `other…` holds
bits of the format's word set (R103 to R121) that the layout of the reference fixes and the
classifier does not look at (R76). -/
inductive Instr where
  /-- Format 1 (R54, R103): Op 00 LSL, 01 LSR, 10 ASR; 11 belongs to format 2. -/
  | moveShiftedRegister (op : BitVec 2) (offset5 : BitVec 5) (rs rd : RegField)
  /-- Format 2 (R55, R104): I, immediate operand; Op, subtract. -/
  | addSubtract (immediate subtract : Bool) (rnOrOffset3 : BitVec 3) (rs rd : RegField)
  /-- Format 3 (R56, R105). -/
  | moveCompareAddSubtractImmediate (op : ImmediateOp) (rd : RegField) (offset8 : BitVec 8)
  /-- Format 4 (R57, R106). -/
  | aluOperation (op : AluOp) (rs rd : RegField)
  /-- Format 5 (R58, R107): H1 and H2, the high-register flags. -/
  | hiRegisterOperationsBranchExchange (op : HiOp) (h1 h2 : Bool) (rs rd : RegField)
  /-- Format 6 (R59, R108). -/
  | pcRelativeLoad (rd : RegField) (word8 : BitVec 8)
  /-- Format 7 (R60, R109): L, load; B, byte. -/
  | loadStoreWithRegisterOffset (load byte : Bool) (ro rb rd : RegField)
  /-- Format 8 (R61, R110): the H and S bits. -/
  | loadStoreSignExtendedByteHalfword (h s : Bool) (ro rb rd : RegField)
  /-- Format 9 (R62, R111): B, byte; L, load. -/
  | loadStoreWithImmediateOffset (byte load : Bool) (offset5 : BitVec 5) (rb rd : RegField)
  /-- Format 10 (R63, R112): L, load. -/
  | loadStoreHalfword (load : Bool) (offset5 : BitVec 5) (rb rd : RegField)
  /-- Format 11 (R64, R113): L, load. -/
  | spRelativeLoadStore (load : Bool) (rd : RegField) (word8 : BitVec 8)
  /-- Format 12 (R65, R114): SP, the base is SP and not PC. -/
  | loadAddress (sp : Bool) (rd : RegField) (word8 : BitVec 8)
  /-- Format 13 (R66, R115): S, subtract; `other11` is bit 11 and `other98` bits 9:8, all 0 in the
  reference's layout. -/
  | addOffsetToStackPointer (other11 : Bool) (other98 : BitVec 2) (subtract : Bool) (sword7 : BitVec 7)
  /-- Format 14 (R67, R116): L, POP; R, also LR or PC; `other9` is bit 9, 0 in the reference's layout. -/
  | pushPopRegisters (load other9 r : Bool) (rlist : BitVec 8)
  /-- Format 15 (R68, R117): L, LDMIA. -/
  | multipleLoadStore (load : Bool) (rb : RegField) (rlist : BitVec 8)
  /-- Format 16 (R69, R118): Cond 1111 belongs to format 17. -/
  | conditionalBranch (cond : BitVec 4) (soffset8 : BitVec 8)
  /-- Format 17 (R70, R119). -/
  | softwareInterrupt (value8 : BitVec 8)
  /-- Format 18 (R71, R120): `other11` is bit 11, 0 in the reference's layout. -/
  | unconditionalBranch (other11 : Bool) (offset11 : BitVec 11)
  /-- Format 19 (R72, R121): H, the second half. -/
  | longBranchWithLink (h : Bool) (offset : BitVec 11)
  /-- READ(i) (spec/40_register_access.md R79). -/
  | read (i : IndexOperand)
  /-- WRITE(i, v) (R80). -/
  | write (i : IndexOperand) (v : Word)
  /-- EXPORT (R81). -/
  | exportStore
  /-- IMPORT(s) (R82). -/
  | importStore (s : List Word)
  /-- LABEL(i) (R83). -/
  | label (i : IndexOperand)
  /-- GETMODE (spec/41_status_register.md R84). -/
  | getMode
  /-- SETMODE(t) (R85). -/
  | setMode (t : ProcessorMode)
  /-- GET_T (R86). -/
  | getT
  /-- GET_F (R87). -/
  | getF
  /-- GET_I (R88). -/
  | getI
  /-- GET_V (R89). -/
  | getV
  /-- GET_C (R90). -/
  | getC
  /-- GET_Z (R91). -/
  | getZ
  /-- GET_N (R92). -/
  | getN
  /-- SET_T(v) (R93). -/
  | setT (v : Bool)
  /-- SET_F(v) (R94). -/
  | setF (v : Bool)
  /-- SET_I(v) (R95). -/
  | setI (v : Bool)
  /-- SET_V(v) (R96). -/
  | setV (v : Bool)
  /-- SET_C(v) (R97). -/
  | setC (v : Bool)
  /-- SET_Z(v) (R98). -/
  | setZ (v : Bool)
  /-- SET_N(v) (R99). -/
  | setN (v : Bool)
  /-- CLASSIFY(w) (spec/42_format_classifier.md R100). -/
  | classify (w : Half)
  /-- RESET (spec/70_reset_and_hazards.md R139). -/
  | reset
  deriving DecidableEq, Repr

end Sys2Proof
end

