-- ==== Sys2Proof/Config.lean ====
section
/-! DEFINITION. The parameters of the block (spec/00_scope.md R8). The widths and counts of R8 are the
types of Word.lean and Syntax.lean. The classifier's table is a parameter (`FormatTable`), whose
decided value is `formatTable` in Decode.lean; `DECODE_ON_UNBANKED` is `decodeOnUnbanked` in
Machine/Ops.lean. The two parameters the spec leaves OPEN stand here with no value. -/

namespace Sys2Proof

/-- The parameters `FORMAT_MASKS` and `FORMAT_ORDER` of the classifier (R8, R35, D9, D10): the
required-ones mask of each format, and the order in which the masks are tried. -/
structure FormatTable where
  mask : InstructionFormat → Half
  order : List InstructionFormat

/-- The two byte orders of D14. -/
inductive ByteOrder where
  | little | big
  deriving DecidableEq, Repr, Inhabited

/-- `FETCH_BYTE_ORDER`, OPEN: how the external fetch stage assembles a THUMB word (R8, R37, D14). The
block never sees bytes, so no definition reads it. -/
opaque Config.fetchByteOrder : ByteOrder

/-- `SNAPSHOT_BYTE_ENCODING`, OPEN: how a host writes one word of a snapshot to a byte stream (R38, D15).
The block defines no byte encoding, so no definition reads it. -/
opaque Config.snapshotByteEncoding : Word → List (BitVec 8)

end Sys2Proof
end

