-- ==== Sys2Proof/WellFormed.lean ====
section
/-! DEFINITION. Which instructions are well formed: those whose encoding is a word of their own format.
Two field values belong to another format (spec/30_encoding.md R54, R69); every other operand of the
right width is legal, an index above 16 among them, which raises an error and is not refused (R74). -/

namespace Sys2Proof

/-- The well-formedness check. -/
def Instr.wf : Instr → Bool
  | .moveShiftedRegister op _ _ _ => op != 0b11#2      -- R54: "11 is format 2"
  | .conditionalBranch cond _ => cond != 0b1111#4      -- R69: "1111 is format 17"
  | .addSubtract .. | .moveCompareAddSubtractImmediate .. | .aluOperation ..
  | .hiRegisterOperationsBranchExchange .. | .pcRelativeLoad .. | .loadStoreWithRegisterOffset ..
  | .loadStoreSignExtendedByteHalfword .. | .loadStoreWithImmediateOffset .. | .loadStoreHalfword ..
  | .spRelativeLoadStore .. | .loadAddress .. | .addOffsetToStackPointer .. | .pushPopRegisters ..
  | .multipleLoadStore .. | .softwareInterrupt .. | .unconditionalBranch .. | .longBranchWithLink ..
  | .read .. | .write .. | .exportStore | .importStore .. | .label .. | .getMode | .setMode ..
  | .getT | .getF | .getI | .getV | .getC | .getZ | .getN
  | .setT .. | .setF .. | .setI .. | .setV .. | .setC .. | .setZ .. | .setN ..
  | .classify .. | .reset => true

end Sys2Proof
end

