-- ==== Sys2Proof/Decode.lean ====
section
/-! DEFINITION. The classifier's table and algorithm, the decoder (total on every request, refusing by
name) and after it the encoder, both written from spec/30_encoding.md (R49 to R74). -/

namespace Sys2Proof

/-! ## Codes of modes, status bits and operation fields -/

/-- The 5-bit code of a mode (spec/10_state.md R15). -/
def ProcessorMode.code : ProcessorMode → ModeBits
  | .user => 0b10000#5
  | .fiq => 0b10001#5
  | .irq => 0b10010#5
  | .svc => 0b10011#5
  | .abt => 0b10111#5
  | .und => 0b11011#5
  | .system => 0b11111#5

/-- The mode of a 5-bit code, none for the 25 values that are no mode code (R16). -/
def ProcessorMode.ofCode (b : ModeBits) : Option ProcessorMode :=
  if b = 0b10000#5 then some .user
  else if b = 0b10001#5 then some .fiq
  else if b = 0b10010#5 then some .irq
  else if b = 0b10011#5 then some .svc
  else if b = 0b10111#5 then some .abt
  else if b = 0b11011#5 then some .und
  else if b = 0b11111#5 then some .system
  else none

/-- The CPSR bit position of a flag or control bit (R27, R73). -/
def StatusBit.position : StatusBit → Nat
  | .t => 5
  | .f => 6
  | .i => 7
  | .v => 28
  | .c => 29
  | .z => 30
  | .n => 31

/-- The status bit at a bit position of GETFLAG or SETFLAG, none outside the seven (R74). -/
def StatusBit.ofPosition (b : BitVec 5) : Option StatusBit :=
  if b = 5#5 then some .t
  else if b = 6#5 then some .f
  else if b = 7#5 then some .i
  else if b = 28#5 then some .v
  else if b = 29#5 then some .c
  else if b = 30#5 then some .z
  else if b = 31#5 then some .n
  else none

/-- R56. -/
def ImmediateOp.code : ImmediateOp → BitVec 2
  | .mov => 0b00#2
  | .cmp => 0b01#2
  | .add => 0b10#2
  | .sub => 0b11#2

/-- R56. -/
def ImmediateOp.ofCode (c : BitVec 2) : ImmediateOp :=
  if c = 0b00#2 then .mov else if c = 0b01#2 then .cmp else if c = 0b10#2 then .add else .sub

/-- R57. -/
def AluOp.code : AluOp → BitVec 4
  | .and => 0b0000#4
  | .eor => 0b0001#4
  | .lsl => 0b0010#4
  | .lsr => 0b0011#4
  | .asr => 0b0100#4
  | .adc => 0b0101#4
  | .sbc => 0b0110#4
  | .ror => 0b0111#4
  | .tst => 0b1000#4
  | .neg => 0b1001#4
  | .cmp => 0b1010#4
  | .cmn => 0b1011#4
  | .orr => 0b1100#4
  | .mul => 0b1101#4
  | .bic => 0b1110#4
  | .mvn => 0b1111#4

/-- R57. -/
def AluOp.ofCode (c : BitVec 4) : AluOp :=
  if c = 0b0000#4 then .and
  else if c = 0b0001#4 then .eor
  else if c = 0b0010#4 then .lsl
  else if c = 0b0011#4 then .lsr
  else if c = 0b0100#4 then .asr
  else if c = 0b0101#4 then .adc
  else if c = 0b0110#4 then .sbc
  else if c = 0b0111#4 then .ror
  else if c = 0b1000#4 then .tst
  else if c = 0b1001#4 then .neg
  else if c = 0b1010#4 then .cmp
  else if c = 0b1011#4 then .cmn
  else if c = 0b1100#4 then .orr
  else if c = 0b1101#4 then .mul
  else if c = 0b1110#4 then .bic
  else .mvn

/-- R58. -/
def HiOp.code : HiOp → BitVec 2
  | .add => 0b00#2
  | .cmp => 0b01#2
  | .mov => 0b10#2
  | .bx => 0b11#2

/-- R58. -/
def HiOp.ofCode (c : BitVec 2) : HiOp :=
  if c = 0b00#2 then .add else if c = 0b01#2 then .cmp else if c = 0b10#2 then .mov else .bx

/-! ## The classifier (R49 to R53, R100) -/

/-- The format number, the spec's tag value (R49, R52, D11). -/
def InstructionFormat.number : InstructionFormat → Nat
  | .moveShiftedRegister => 1
  | .addSubtract => 2
  | .moveCompareAddSubtractImmediate => 3
  | .aluOperation => 4
  | .hiRegisterOperationsBranchExchange => 5
  | .pcRelativeLoad => 6
  | .loadStoreWithRegisterOffset => 7
  | .loadStoreSignExtendedByteHalfword => 8
  | .loadStoreWithImmediateOffset => 9
  | .loadStoreHalfword => 10
  | .spRelativeLoadStore => 11
  | .loadAddress => 12
  | .addOffsetToStackPointer => 13
  | .pushPopRegisters => 14
  | .multipleLoadStore => 15
  | .conditionalBranch => 16
  | .softwareInterrupt => 17
  | .unconditionalBranch => 18
  | .longBranchWithLink => 19

/-- The human-readable name a format carries for diagnostics (R49, the table of R52). It has no effect
on matching, so nothing of the machine reads it. -/
def InstructionFormat.name : InstructionFormat → String
  | .moveShiftedRegister => "move shifted register"
  | .addSubtract => "add/subtract"
  | .moveCompareAddSubtractImmediate => "move/compare/add/subtract immediate"
  | .aluOperation => "ALU operation"
  | .hiRegisterOperationsBranchExchange => "Hi register operations / branch exchange"
  | .pcRelativeLoad => "PC-relative load"
  | .loadStoreWithRegisterOffset => "load/store with register offset"
  | .loadStoreSignExtendedByteHalfword => "load/store sign-extended byte/halfword"
  | .loadStoreWithImmediateOffset => "load/store with immediate offset"
  | .loadStoreHalfword => "load/store halfword"
  | .spRelativeLoadStore => "SP-relative load/store"
  | .loadAddress => "load address"
  | .addOffsetToStackPointer => "add offset to stack pointer"
  | .pushPopRegisters => "push/pop registers"
  | .multipleLoadStore => "multiple load/store"
  | .conditionalBranch => "conditional branch"
  | .softwareInterrupt => "software interrupt"
  | .unconditionalBranch => "unconditional branch"
  | .longBranchWithLink => "long branch with link"

/-- The decided `FORMAT_MASKS`: the required-ones mask of each format (R52, D9). -/
def formatMask : InstructionFormat → Half
  | .moveShiftedRegister => 0x0000#16
  | .addSubtract => 0x1800#16
  | .moveCompareAddSubtractImmediate => 0x2000#16
  | .aluOperation => 0x4000#16
  | .hiRegisterOperationsBranchExchange => 0x4400#16
  | .pcRelativeLoad => 0x4800#16
  | .loadStoreWithRegisterOffset => 0x5000#16
  | .loadStoreSignExtendedByteHalfword => 0x5200#16
  | .loadStoreWithImmediateOffset => 0x6000#16
  | .loadStoreHalfword => 0x8000#16
  | .spRelativeLoadStore => 0x9000#16
  | .loadAddress => 0xA000#16
  | .addOffsetToStackPointer => 0xB000#16
  | .pushPopRegisters => 0xB400#16
  | .multipleLoadStore => 0xC000#16
  | .conditionalBranch => 0xD000#16
  | .softwareInterrupt => 0xDF00#16
  | .unconditionalBranch => 0xE000#16
  | .longBranchWithLink => 0xF000#16

/-- The decided `FORMAT_ORDER`: descending unsigned value of the mask (R53, D10). -/
def formatOrder : List InstructionFormat :=
  [.longBranchWithLink, .unconditionalBranch, .softwareInterrupt, .conditionalBranch,
    .multipleLoadStore, .pushPopRegisters, .addOffsetToStackPointer, .loadAddress,
    .spRelativeLoadStore, .loadStoreHalfword] ++
  [.loadStoreWithImmediateOffset, .loadStoreSignExtendedByteHalfword, .loadStoreWithRegisterOffset,
    .pcRelativeLoad, .hiRegisterOperationsBranchExchange, .aluOperation,
    .moveCompareAddSubtractImmediate, .addSubtract, .moveShiftedRegister]

/-- The table this hardware takes (R8). -/
def formatTable : FormatTable := { mask := formatMask, order := formatOrder }

/-- The required-ones test: every bit of the mask is 1 in the word, and nothing is asked of the others
(R50: `w & M == M`). -/
def containsMask (w mask : Half) : Bool := w &&& mask == mask

/-- The algorithm of CLASSIFY over any table: the first format of the order whose mask the word
contains; none stands for `Unclassifiable` (R100). -/
def classifyWith (table : FormatTable) (w : Half) : Option InstructionFormat :=
  table.order.find? fun f => containsMask w (table.mask f)

/-- The classifier of this hardware (R100 over R52 and R53). -/
def classify (w : Half) : Option InstructionFormat := classifyWith formatTable w

/-! ## The decoder -/

/-- Bit `n` of a THUMB word. -/
def bitAt (w : Half) (n : Nat) : Bool := w.getLsbD n

/-- A THUMB word handed over by the fetch stage: its format by the classifier, its fields by the format's
layout (R54 to R72). Under the decided table every word has a format (R101); for a table under which
one had none, the word is the plain CLASSIFY of itself, which raises `Unclassifiable`. -/
def decodeThumb (w : Half) : Instr :=
  match classify w with
  | some .moveShiftedRegister =>
    .moveShiftedRegister (w.extractLsb' 11 2) (w.extractLsb' 6 5) (w.extractLsb' 3 3) (w.extractLsb' 0 3)
  | some .addSubtract =>
    .addSubtract (bitAt w 10) (bitAt w 9) (w.extractLsb' 6 3) (w.extractLsb' 3 3) (w.extractLsb' 0 3)
  | some .moveCompareAddSubtractImmediate =>
    .moveCompareAddSubtractImmediate (ImmediateOp.ofCode (w.extractLsb' 11 2)) (w.extractLsb' 8 3)
      (w.extractLsb' 0 8)
  | some .aluOperation =>
    .aluOperation (AluOp.ofCode (w.extractLsb' 6 4)) (w.extractLsb' 3 3) (w.extractLsb' 0 3)
  | some .hiRegisterOperationsBranchExchange =>
    .hiRegisterOperationsBranchExchange (HiOp.ofCode (w.extractLsb' 8 2)) (bitAt w 7) (bitAt w 6)
      (w.extractLsb' 3 3) (w.extractLsb' 0 3)
  | some .pcRelativeLoad => .pcRelativeLoad (w.extractLsb' 8 3) (w.extractLsb' 0 8)
  | some .loadStoreWithRegisterOffset =>
    .loadStoreWithRegisterOffset (bitAt w 11) (bitAt w 10) (w.extractLsb' 6 3) (w.extractLsb' 3 3)
      (w.extractLsb' 0 3)
  | some .loadStoreSignExtendedByteHalfword =>
    .loadStoreSignExtendedByteHalfword (bitAt w 11) (bitAt w 10) (w.extractLsb' 6 3)
      (w.extractLsb' 3 3) (w.extractLsb' 0 3)
  | some .loadStoreWithImmediateOffset =>
    .loadStoreWithImmediateOffset (bitAt w 12) (bitAt w 11) (w.extractLsb' 6 5) (w.extractLsb' 3 3)
      (w.extractLsb' 0 3)
  | some .loadStoreHalfword =>
    .loadStoreHalfword (bitAt w 11) (w.extractLsb' 6 5) (w.extractLsb' 3 3) (w.extractLsb' 0 3)
  | some .spRelativeLoadStore =>
    .spRelativeLoadStore (bitAt w 11) (w.extractLsb' 8 3) (w.extractLsb' 0 8)
  | some .loadAddress => .loadAddress (bitAt w 11) (w.extractLsb' 8 3) (w.extractLsb' 0 8)
  | some .addOffsetToStackPointer =>
    .addOffsetToStackPointer (bitAt w 11) (w.extractLsb' 8 2) (bitAt w 7) (w.extractLsb' 0 7)
  | some .pushPopRegisters =>
    .pushPopRegisters (bitAt w 11) (bitAt w 9) (bitAt w 8) (w.extractLsb' 0 8)
  | some .multipleLoadStore => .multipleLoadStore (bitAt w 11) (w.extractLsb' 8 3) (w.extractLsb' 0 8)
  | some .conditionalBranch => .conditionalBranch (w.extractLsb' 8 4) (w.extractLsb' 0 8)
  | some .softwareInterrupt => .softwareInterrupt (w.extractLsb' 0 8)
  | some .unconditionalBranch => .unconditionalBranch (bitAt w 11) (w.extractLsb' 0 11)
  | some .longBranchWithLink => .longBranchWithLink (bitAt w 11) (w.extractLsb' 0 11)
  | none => .classify w

/-- The getter of a status bit (R73, the table of flag operations). -/
def StatusBit.getter : StatusBit → Instr
  | .t => .getT
  | .f => .getF
  | .i => .getI
  | .v => .getV
  | .c => .getC
  | .z => .getZ
  | .n => .getN

/-- The setter of a status bit (R73, the table of flag operations). -/
def StatusBit.setter (b : StatusBit) (v : Bool) : Instr :=
  match b with
  | .t => .setT v
  | .f => .setF v
  | .i => .setI v
  | .v => .setV v
  | .c => .setC v
  | .z => .setZ v
  | .n => .setN v

/-- Field A of a command word, `CW[7:0]`, whose bits from `used` up must be 0 (R74: "Field A bits the
operation does not use … must be 0, or the command is refused"). -/
def fieldA (cw : CommandWord) (used : Nat) : Except DecodeError (BitVec used) :=
  if (cw.extractLsb' 0 8) >>> used = 0#8 then .ok (cw.extractLsb' 0 used)
  else .error (.unusedFieldBits cw)

/-- The operation takes no data operand (R73). -/
def noData (cw : CommandWord) : DataOperand → Except DecodeError Unit
  | .none => .ok ()
  | .word _ | .words _ | .half _ => .error (.wrongDataOperand cw)

/-- The operation takes one 32-bit word (R73, R74). -/
def wordData (cw : CommandWord) : DataOperand → Except DecodeError Word
  | .word v => .ok v
  | .none | .words _ | .half _ => .error (.wrongDataOperand cw)

/-- The operation takes a sequence of words, its length carried with it (R73, R74). -/
def wordsData (cw : CommandWord) : DataOperand → Except DecodeError (List Word)
  | .words s => .ok s
  | .none | .word _ | .half _ => .error (.wrongDataOperand cw)

/-- The operation takes one 16-bit THUMB word (R73, R74). -/
def halfData (cw : CommandWord) : DataOperand → Except DecodeError Half
  | .half w => .ok w
  | .none | .word _ | .words _ => .error (.wrongDataOperand cw)

/-- The mode operand of SETMODE (R74, D32). -/
def modeOperand (m : ModeBits) : Except DecodeError ProcessorMode :=
  match ProcessorMode.ofCode m with
  | some t => .ok t
  | none => .error (.notAModeCode m)

/-- The bit position of GETFLAG and SETFLAG (R74). -/
def flagOperand (b : BitVec 5) : Except DecodeError StatusBit :=
  match StatusBit.ofPosition b with
  | some flag => .ok flag
  | none => .error (.notAFlagPosition b)

/-- The operation code, `CW[11:8]` (R73). -/
def operationCode (cw : CommandWord) : BitVec 4 := cw.extractLsb' 8 4

/-- A port command: the table of R73, with the operand rules of R74 and the refusals of R76. -/
def decodeCommand (cw : CommandWord) (data : DataOperand) : Except DecodeError Instr :=
  match (operationCode cw).toNat with
  | 0 => do
    let i ← fieldA cw 5
    noData cw data
    return .read i
  | 1 => do
    let i ← fieldA cw 5
    let v ← wordData cw data
    return .write i v
  | 2 => do
    let _ ← fieldA cw 0
    noData cw data
    return .exportStore
  | 3 => do
    let _ ← fieldA cw 0
    let s ← wordsData cw data
    return .importStore s
  | 4 => do
    let i ← fieldA cw 5
    noData cw data
    return .label i
  | 5 => do
    let _ ← fieldA cw 0
    noData cw data
    return .getMode
  | 6 => do
    let m ← fieldA cw 5
    noData cw data
    let t ← modeOperand m
    return .setMode t
  | 7 => do
    let b ← fieldA cw 5
    noData cw data
    let flag ← flagOperand b
    return flag.getter
  | 8 => do
    let a ← fieldA cw 6
    noData cw data
    let flag ← flagOperand (a.extractLsb' 0 5)
    return flag.setter (a.getLsbD 5)
  | 9 => do
    let _ ← fieldA cw 0
    let w ← halfData cw data
    return .classify w
  | 10 => do
    let _ ← fieldA cw 0
    noData cw data
    return .reset
  | _ => .error (.reservedOperation (operationCode cw))

/-- The decoder, total on every request. -/
def decode : Request → Except DecodeError Instr
  | .command cw data => decodeCommand cw data
  | .thumb w => .ok (decodeThumb w)

/-! ## The encoder -/

/-- One bit of a word being assembled. -/
def bit (b : Bool) : BitVec 1 := BitVec.ofBool b

/-- The fields of a word, assembled, as a THUMB word: their widths add up to 16. -/
def toHalf {n : Nat} (x : BitVec n) (h : n = 16 := by rfl) : Half := x.cast h

/-- The fields of a command word, assembled: their widths add up to 12. -/
def toCommand {n : Nat} (x : BitVec n) (h : n = 12 := by rfl) : CommandWord := x.cast h

/-- R54. -/
def wordMoveShiftedRegister (op : BitVec 2) (offset5 : BitVec 5) (rs rd : RegField) : Half :=
  toHalf (0b000#3 ++ op ++ offset5 ++ rs ++ rd)

/-- R55. -/
def wordAddSubtract (immediate subtract : Bool) (rnOrOffset3 : BitVec 3) (rs rd : RegField) : Half :=
  toHalf (0b00011#5 ++ bit immediate ++ bit subtract ++ rnOrOffset3 ++ rs ++ rd)

/-- R56. -/
def wordMoveCompareAddSubtractImmediate (op : ImmediateOp) (rd : RegField) (offset8 : BitVec 8) : Half :=
  toHalf (0b001#3 ++ op.code ++ rd ++ offset8)

/-- R57. -/
def wordAluOperation (op : AluOp) (rs rd : RegField) : Half :=
  toHalf (0b010000#6 ++ op.code ++ rs ++ rd)

/-- R58. -/
def wordHiRegisterOperationsBranchExchange (op : HiOp) (h1 h2 : Bool) (rs rd : RegField) : Half :=
  toHalf (0b010001#6 ++ op.code ++ bit h1 ++ bit h2 ++ rs ++ rd)

/-- R59. -/
def wordPcRelativeLoad (rd : RegField) (word8 : BitVec 8) : Half :=
  toHalf (0b01001#5 ++ rd ++ word8)

/-- R60. -/
def wordLoadStoreWithRegisterOffset (load byte : Bool) (ro rb rd : RegField) : Half :=
  toHalf (0b0101#4 ++ bit load ++ bit byte ++ 0b0#1 ++ ro ++ rb ++ rd)

/-- R61. -/
def wordLoadStoreSignExtendedByteHalfword (h s : Bool) (ro rb rd : RegField) : Half :=
  toHalf (0b0101#4 ++ bit h ++ bit s ++ 0b1#1 ++ ro ++ rb ++ rd)

/-- R62. -/
def wordLoadStoreWithImmediateOffset (byte load : Bool) (offset5 : BitVec 5) (rb rd : RegField) : Half :=
  toHalf (0b011#3 ++ bit byte ++ bit load ++ offset5 ++ rb ++ rd)

/-- R63. -/
def wordLoadStoreHalfword (load : Bool) (offset5 : BitVec 5) (rb rd : RegField) : Half :=
  toHalf (0b1000#4 ++ bit load ++ offset5 ++ rb ++ rd)

/-- R64. -/
def wordSpRelativeLoadStore (load : Bool) (rd : RegField) (word8 : BitVec 8) : Half :=
  toHalf (0b1001#4 ++ bit load ++ rd ++ word8)

/-- R65. -/
def wordLoadAddress (sp : Bool) (rd : RegField) (word8 : BitVec 8) : Half :=
  toHalf (0b1010#4 ++ bit sp ++ rd ++ word8)

/-- R66, with the free bits 11, 9 and 8 of the format's word set (R115). -/
def wordAddOffsetToStackPointer (other11 : Bool) (other98 : BitVec 2) (subtract : Bool)
    (sword7 : BitVec 7) : Half :=
  toHalf (0b1011#4 ++ bit other11 ++ 0b0#1 ++ other98 ++ bit subtract ++ sword7)

/-- R67, with the free bit 9 of the format's word set (R116). -/
def wordPushPopRegisters (load other9 r : Bool) (rlist : BitVec 8) : Half :=
  toHalf (0b1011#4 ++ bit load ++ 0b1#1 ++ bit other9 ++ bit r ++ rlist)

/-- R68. -/
def wordMultipleLoadStore (load : Bool) (rb : RegField) (rlist : BitVec 8) : Half :=
  toHalf (0b1100#4 ++ bit load ++ rb ++ rlist)

/-- R69. -/
def wordConditionalBranch (cond : BitVec 4) (soffset8 : BitVec 8) : Half :=
  toHalf (0b1101#4 ++ cond ++ soffset8)

/-- R70. -/
def wordSoftwareInterrupt (value8 : BitVec 8) : Half :=
  toHalf (0b11011111#8 ++ value8)

/-- R71, with the free bit 11 of the format's word set (R120). -/
def wordUnconditionalBranch (other11 : Bool) (offset11 : BitVec 11) : Half :=
  toHalf (0b1110#4 ++ bit other11 ++ offset11)

/-- R72. -/
def wordLongBranchWithLink (h : Bool) (offset : BitVec 11) : Half :=
  toHalf (0b1111#4 ++ bit h ++ offset)

/-- A command word whose field A is `000` and a 5-bit operand (R73). -/
def commandWord (op : BitVec 4) (operand : BitVec 5) : CommandWord :=
  toCommand (op ++ 0b000#3 ++ operand)

/-- GETFLAG's command word (R73). -/
def getCommand (b : StatusBit) : CommandWord := commandWord 0b0111#4 (BitVec.ofNat 5 b.position)

/-- SETFLAG's command word: field A is `00vbbbbb` (R73). -/
def setCommand (b : StatusBit) (v : Bool) : CommandWord :=
  toCommand (0b1000#4 ++ 0b00#2 ++ bit v ++ BitVec.ofNat 5 b.position)

/-- The encoder: the request that is the instruction (R54 to R73). -/
def encode : Instr → Request
  | .moveShiftedRegister op offset5 rs rd => .thumb (wordMoveShiftedRegister op offset5 rs rd)
  | .addSubtract i p rn rs rd => .thumb (wordAddSubtract i p rn rs rd)
  | .moveCompareAddSubtractImmediate op rd offset8 =>
    .thumb (wordMoveCompareAddSubtractImmediate op rd offset8)
  | .aluOperation op rs rd => .thumb (wordAluOperation op rs rd)
  | .hiRegisterOperationsBranchExchange op h1 h2 rs rd =>
    .thumb (wordHiRegisterOperationsBranchExchange op h1 h2 rs rd)
  | .pcRelativeLoad rd word8 => .thumb (wordPcRelativeLoad rd word8)
  | .loadStoreWithRegisterOffset l b ro rb rd => .thumb (wordLoadStoreWithRegisterOffset l b ro rb rd)
  | .loadStoreSignExtendedByteHalfword h s ro rb rd =>
    .thumb (wordLoadStoreSignExtendedByteHalfword h s ro rb rd)
  | .loadStoreWithImmediateOffset b l offset5 rb rd =>
    .thumb (wordLoadStoreWithImmediateOffset b l offset5 rb rd)
  | .loadStoreHalfword l offset5 rb rd => .thumb (wordLoadStoreHalfword l offset5 rb rd)
  | .spRelativeLoadStore l rd word8 => .thumb (wordSpRelativeLoadStore l rd word8)
  | .loadAddress sp rd word8 => .thumb (wordLoadAddress sp rd word8)
  | .addOffsetToStackPointer x y s sword7 => .thumb (wordAddOffsetToStackPointer x y s sword7)
  | .pushPopRegisters l x r rlist => .thumb (wordPushPopRegisters l x r rlist)
  | .multipleLoadStore l rb rlist => .thumb (wordMultipleLoadStore l rb rlist)
  | .conditionalBranch cond soffset8 => .thumb (wordConditionalBranch cond soffset8)
  | .softwareInterrupt value8 => .thumb (wordSoftwareInterrupt value8)
  | .unconditionalBranch x offset11 => .thumb (wordUnconditionalBranch x offset11)
  | .longBranchWithLink h offset => .thumb (wordLongBranchWithLink h offset)
  | .read i => .command (commandWord 0b0000#4 i) .none
  | .write i v => .command (commandWord 0b0001#4 i) (.word v)
  | .exportStore => .command 0b001000000000#12 .none
  | .importStore s => .command 0b001100000000#12 (.words s)
  | .label i => .command (commandWord 0b0100#4 i) .none
  | .getMode => .command 0b010100000000#12 .none
  | .setMode t => .command (commandWord 0b0110#4 t.code) .none
  | .getT => .command (getCommand .t) .none
  | .getF => .command (getCommand .f) .none
  | .getI => .command (getCommand .i) .none
  | .getV => .command (getCommand .v) .none
  | .getC => .command (getCommand .c) .none
  | .getZ => .command (getCommand .z) .none
  | .getN => .command (getCommand .n) .none
  | .setT v => .command (setCommand .t v) .none
  | .setF v => .command (setCommand .f v) .none
  | .setI v => .command (setCommand .i v) .none
  | .setV v => .command (setCommand .v v) .none
  | .setC v => .command (setCommand .c v) .none
  | .setZ v => .command (setCommand .z v) .none
  | .setN v => .command (setCommand .n v) .none
  | .classify w => .command 0b100100000000#12 (.half w)
  | .reset => .command 0b101000000000#12 .none

/-! ## Words as spec/opcode_table.json numbers them -/

/-- The data operand of a command word, from the bits that follow the command word's 16-bit cell. The
kind is the one the operation takes (R73); an IMPORT carries no words here. -/
def tableData (cw : CommandWord) (bits : Nat) : DataOperand :=
  match (operationCode cw).toNat with
  | 1 => .word (BitVec.ofNat 32 bits)
  | 3 => .words []
  | 9 => .half (BitVec.ofNat 16 bits)
  | _ => .none

/-- The request that an opcode-table word stands for. The table's two encoding spaces overlap: a command
word has 12 bits and a THUMB word 16, and a request says by itself which of the two it is, which a
bare number does not. A number that is an assigned command word is read as that command, every other
number of up to 16 bits as a THUMB word (notes/assumptions/7.md). -/
def tableRequest (nbits w : Nat) : Request :=
  let cw : CommandWord := BitVec.ofNat 12 w
  let data := tableData cw (w / 65536)
  let assigned := match decodeCommand cw data with
    | .ok _ => true
    | .error _ => false
  if nbits ≤ 12 ∨ (w % 65536 < 4096 ∧ assigned = true) then .command cw data
  else .thumb (BitVec.ofNat 16 w)

/-- The instruction the decoder reads from an opcode-table word, none where it refuses. -/
def decodeTableWord (nbits w : Nat) : Option Instr :=
  match decode (tableRequest nbits w) with
  | .ok i => some i
  | .error _ => none

end Sys2Proof
end

