-- ==== Sys2Proof/Machine/State.lean ====
section
/-! DEFINITION. What the block holds (spec/10_state.md R14), what it answers, and how it can stop. -/

namespace Sys2Proof.Machine

/-- The register store `P[0..36]`, 37 words of 32 bits addressed by position (R17). Its layout is the
table of R18: 0 to 15 r0 to r15 of User, 16 the CPSR, 17 to 23 r8_fiq to r14_fiq, 24 SPSR_fiq, 25 to 27
SP, LR and SPSR of Svc, 28 to 30 of Abt, 31 to 33 of Irq, 34 to 36 of Und. -/
abbrev Store := Vector Word 37

/-- The store of a default-constructed register file: "all words zero except the status register, which
is initialized to the `User` mode code" (R33). -/
def Store.reset : Store := (Vector.replicate 37 0x00000000#32).set 16 0x00000010#32

/-- The four errors of the block, each with the value it records (spec/60_exceptions.md R123). They are
returned to the caller (R124, R125), so raising one is no fault of the machine. -/
inductive BlockError where
  /-- A logical index above 16: READ, WRITE, LABEL. Not fatal. -/
  | outOfRange (i : IndexOperand)
  /-- A snapshot of n words, n not 37: IMPORT. Not fatal. -/
  | snapshotSizeMismatch (n : Nat)
  /-- `CPSR[4:0]` holds no mode code: every operation that decodes the mode. Fatal. -/
  | invalidMode (b : ModeBits)
  /-- No mask of the table is contained in the word: CLASSIFY. Not fatal. -/
  | unclassifiable (w : Half)
  deriving DecidableEq, Repr

/-- What an operation returns to its caller (the result column of R73), or the error in its place. -/
inductive Response where
  /-- No result: nothing has been served since reset, or the operation returns nothing. -/
  | none
  | word (v : Word)
  | snapshot (s : Store)
  | label (name : String)
  | mode (m : ProcessorMode)
  | bit (b : Bool)
  | format (f : InstructionFormat)
  | error (e : BlockError)
  deriving DecidableEq, Repr

/-- Why the machine stops. -/
inductive Fault where
  /-- Raised by every operation but RESET while `Faulted` is 1: "no operation of the block other than
  RESET is defined", and the instance is "stopped in a faulted state that is never final"
  (R31, R125, 93 U15). Safe: the model stops where the spec defines nothing. -/
  | instanceFaulted
  deriving DecidableEq, Repr

/-- Why a request is not run. -/
inductive Refusal where
  /-- Raised by `exec` for an instruction that has no meaning yet. Safe. No arm raises it. -/
  | notModelled (mnemonic : String)
  /-- Raised by `step` for a request that no operation answers to (R11, R74, R76), with the reason.
  Safe: the spec refuses it too, but for `wrongDataOperand`, which is the model's own refusal
  (notes/assumptions/3.md). -/
  | undecodable (e : DecodeError)
  deriving DecidableEq, Repr

/-- The state: the store and the fatal-fault latch, which are all the spec gives the block (R14), and
the two ports by which the caller reaches it, which are the model's own
(notes/assumptions/1.md and 2.md). -/
structure State where
  /-- `P[0..36]` (R17, R18). -/
  slots : Store
  /-- `Faulted` (R31). -/
  faulted : Bool
  /-- The requests the caller has issued and the block has not served, oldest first (R7, R42). -/
  pending : List Request
  /-- What the last served operation returned (R11, R73, R124). -/
  response : Response
  deriving DecidableEq, Repr

/-- The machine after reset (R33): nothing pending, nothing answered. -/
def State.reset : State :=
  { slots := Store.reset, faulted := false, pending := [], response := .none }

end Sys2Proof.Machine
end

