-- ==== Sys2Proof/Machine/Flags.lean ====
section
/-! DEFINITION. The fields of a status word and their updates (spec/10_state.md R27, R30,
spec/41_status_register.md). The block computes no flag from a result (R28, R30): these are all the
flag computations it has. -/

namespace Sys2Proof.Machine

/-- The mode field, `c[4:0]` (R16, R27). -/
def modeField (c : Word) : ModeBits := c.extractLsb' 0 5

/-- One flag or control bit of a status word: `c[b]` (R86 to R92). -/
def statusBit (c : Word) (b : StatusBit) : Bool := c.getLsbD b.position

/-- A status word with one flag or control bit replaced:
`(c & ~(1 << b)) | (v << b)` (R93 to R99). -/
def withStatusBit (c : Word) (b : StatusBit) (v : Bool) : Word :=
  (c &&& ~~~(1#32 <<< b.position)) ||| ((BitVec.ofBool v).zeroExtend 32 <<< b.position)

/-- A status word with the mode field replaced: `c[31:5] ++ code(t)` (R85 step 3). -/
def withMode (c : Word) (t : ProcessorMode) : Word := c.extractLsb' 5 27 ++ t.code

end Sys2Proof.Machine
end

