-- ==== Sys2Proof/Machine/Operands.lean ====
section
/-! DEFINITION. The checks an operation makes on its operands (spec/30_encoding.md R74). -/

namespace Sys2Proof.Machine

/-- The logical index an index operand names, or `OutOfRange`: "values 17 to 31 raise `OutOfRange(i)`;
they are not refused" (R74, R79, D2). -/
def logicalIndex (i : IndexOperand) : Except BlockError LogicalIndex :=
  if h : i.toNat < 17 then .ok ⟨i.toNat, h⟩ else .error (.outOfRange i)

/-- The store a snapshot holds, or `SnapshotSizeMismatch` when its length is not 37 (R38, R82). -/
def snapshotStore (s : List Word) : Except BlockError Store :=
  if h : s.length = 37 then .ok ⟨s.toArray, h⟩ else .error (.snapshotSizeMismatch s.length)

end Sys2Proof.Machine
end

