-- ==== Sys2Proof/Machine/Ops.lean ====
section
/-! DEFINITION. The operations every meaning is written from: slots, mode decoding, redirection, logical
access, mode entry, raising an error, and running one operation atomically. -/

namespace Sys2Proof.Machine

/-! ## The store -/

/-- `P[k]`. -/
def Store.slot (P : Store) (k : Slot) : Word := P.get k

/-- `P[k] <- v`. -/
def Store.setSlot (P : Store) (k : Slot) (v : Word) : Store := P.set k.val v k.isLt

/-- `CPSR` names `P[16]` (R10, R27). -/
def cpsrSlot : Slot := 16

/-- The CPSR of a store. -/
def Store.cpsr (P : Store) : Word := P.slot cpsrSlot

/-- `CPSR[4:0]`. -/
def Store.modeBits (P : Store) : ModeBits := modeField P.cpsr

/-- The mode the CPSR codes, none if it codes none (R16). -/
def Store.mode? (P : Store) : Option ProcessorMode := ProcessorMode.ofCode P.modeBits

/-- `mode()`: decode `CPSR[4:0]`, or raise the fatal `InvalidMode` (R16). -/
def Store.mode (P : Store) : Except BlockError ProcessorMode :=
  match P.mode? with
  | some m => .ok m
  | none => .error (.invalidMode P.modeBits)

/-! ## Redirection (R20) -/

/-- How far above its own index r13 or r14 of a mode is stored (R20). -/
def bankOffset : ProcessorMode → Nat
  | .user | .system => 0
  | .fiq => 9
  | .svc => 12
  | .abt => 15
  | .irq => 18
  | .und => 21

theorem bankOffset_le (m : ProcessorMode) : bankOffset m ≤ 21 := by
  cases m <;> decide

/-- Whether the slot of a logical index depends on the mode at all: r8 to r14 (R20, R23 to R27). -/
def isBanked (i : LogicalIndex) : Bool := 8 ≤ i.val && i.val ≤ 14

/-- `physical_slot(i, m)` (R20). -/
def physicalSlot (i : LogicalIndex) (m : ProcessorMode) : Slot :=
  if h : i.val ≤ 7 ∨ i.val = 15 ∨ i.val = 16 then ⟨i.val, by omega⟩
  else if i.val ≤ 12 then (if m = .fiq then ⟨i.val + 9, by omega⟩ else ⟨i.val, by omega⟩)
  else ⟨i.val + bankOffset m, by have := bankOffset_le m; omega⟩

/-- The SPSR slot of a mode; User and System have none (R18, R29, R85). -/
def spsrSlot : ProcessorMode → Option Slot
  | .user | .system => none
  | .fiq => some 24
  | .svc => some 27
  | .abt => some 30
  | .irq => some 33
  | .und => some 36

/-! ## Logical access (R79, R80) -/

/-- `DECODE_ON_UNBANKED`: an access to an unbanked index decodes the mode too (R8, R126, D3). -/
def decodeOnUnbanked : Bool := true

/-- The mode an access to a logical index goes by. The mode is decoded for every index when
`DECODE_ON_UNBANKED` holds; were it false, an unbanked index, whose slot is the same in every mode,
would be accessed under an invalid mode field too. -/
def Store.accessMode (P : Store) (i : LogicalIndex) : Except BlockError ProcessorMode :=
  if decodeOnUnbanked || isBanked i then P.mode else .ok (P.mode?.getD .user)

/-- The index check, then the mode decode (R127): the logical index and the mode of an access. -/
def Store.access (P : Store) (i : IndexOperand) : Except BlockError (LogicalIndex × ProcessorMode) := do
  let k ← logicalIndex i
  let m ← P.accessMode k
  return (k, m)

/-- READ's pseudocode (R79). -/
def Store.readLogical (P : Store) (i : IndexOperand) : Except BlockError Word := do
  let (k, m) ← P.access i
  return P.slot (physicalSlot k m)

/-- WRITE's pseudocode (R80): the slot is chosen by the mode in effect before the write. -/
def Store.writeLogical (P : Store) (i : IndexOperand) (v : Word) : Except BlockError Store := do
  let (k, m) ← P.access i
  return P.setSlot (physicalSlot k m) v

/-- The index operand that names the CPSR (R19). -/
def cpsrIndex : IndexOperand := 16#5

/-! ## Status access (spec/41_status_register.md) -/

/-- The getters' pseudocode: READ(16), then one bit (R86 to R92). -/
def Store.readStatus (P : Store) (b : StatusBit) : Except BlockError Bool := do
  let c ← P.readLogical cpsrIndex
  return statusBit c b

/-- The setters' pseudocode: READ(16), then `P[16]` with one bit replaced (R93 to R99). -/
def Store.writeStatus (P : Store) (b : StatusBit) (v : Bool) : Except BlockError Store := do
  let c ← P.readLogical cpsrIndex
  return P.setSlot cpsrSlot (withStatusBit c b v)

/-- Mode entry, the block's part of taking an exception (R85, R129): the pre-transition CPSR, read through
READ(16), goes to the target's SPSR if it has one, and only the mode field of the CPSR changes. Nothing
else happens on entry: no mask is set, T is kept, LR and PC are not written, nothing is vectored to.
There is no return from an exception beside it: "The block has no return-from-exception operation"
(R130). -/
def Store.enterMode (P : Store) (t : ProcessorMode) : Except BlockError Store := do
  let old ← P.readLogical cpsrIndex
  let saved := match spsrSlot t with
    | some k => P.setSlot k old
    | none => P
  return saved.setSlot cpsrSlot (withMode old t)

/-! ## Errors and the running of one operation -/

/-- Whether an error is fatal: `InvalidMode` alone is (R123). -/
def BlockError.fatal : BlockError → Bool
  | .invalidMode _ => true
  | .outOfRange _ | .snapshotSizeMismatch _ | .unclassifiable _ => false

/-- The numeric code of an error (R123, D12). -/
def BlockError.code : BlockError → Nat
  | .outOfRange _ => 1
  | .snapshotSizeMismatch _ => 2
  | .invalidMode _ => 3
  | .unclassifiable _ => 4

/-- Raising an error: it is returned to the caller, a fatal one sets `Faulted`, and nothing else is
written (R124, R125). -/
def State.raise (s : State) (e : BlockError) : State :=
  { s with faulted := s.faulted || e.fatal, response := .error e }

/-- One operation as one atomic step (R12): what its pseudocode makes of the store and what it returns,
or the error it raises, none of its writes then taking place. While `Faulted` is 1 the operation is not
defined and the machine is stopped (R31, R125). -/
def operate (s : State) (body : Store → Except BlockError (Store × Response)) :
    Host.Outcome State Fault Refusal :=
  if s.faulted then .fault .instanceFaulted
  else match body s.slots with
    | .ok (P, r) => .next { s with slots := P, response := r }
    | .error e => .next (s.raise e)

/-- An operation that only reads: it returns a result and leaves the store alone (R40). -/
def query (s : State) (body : Store → Except BlockError Response) : Host.Outcome State Fault Refusal :=
  operate s fun P => do
    let r ← body P
    return (P, r)

/-- An operation that only writes: it returns no result. -/
def update (s : State) (body : Store → Except BlockError Store) : Host.Outcome State Fault Refusal :=
  operate s fun P => do
    let P' ← body P
    return (P', .none)

end Sys2Proof.Machine
end

