-- ==== Sys2Proof/Machine/Classifier.lean ====
section
/-! DEFINITION. The classifier (spec/42_format_classifier.md): CLASSIFY, and the 19 THUMB formats. The
block executes no THUMB instruction: "the classifier's only contract is to identify the instruction's
format, not to execute it" (R6, R131). What it does with a THUMB word the fetch stage hands it is to
classify it (R100, R122), so the meaning of a format's instruction is the classifier's answer for its
word, fields and all. -/

namespace Sys2Proof.Machine

/-- CLASSIFY's pseudocode on a word (R100): the first format of the order whose mask the word contains, or
`Unclassifiable`. The CPSR is not read, and the mode is not decoded (R122, D25). -/
def classifyWord (w : Half) (s : State) : Host.Outcome State Fault Refusal :=
  query s fun _ =>
    match classify w with
    | some f => .ok (.format f)
    | none => .error (.unclassifiable w)

/-- CLASSIFY(w) (R100). -/
def execClassify (w : Half) (s : State) : Host.Outcome State Fault Refusal := classifyWord w s

/-- A word of format 1 is classified (R103). -/
def execMoveShiftedRegister (op : BitVec 2) (offset5 : BitVec 5) (rs rd : RegField)
    (s : State) : Host.Outcome State Fault Refusal :=
  classifyWord (wordMoveShiftedRegister op offset5 rs rd) s

/-- A word of format 2 is classified (R104). -/
def execAddSubtract (immediate subtract : Bool) (rnOrOffset3 : BitVec 3) (rs rd : RegField)
    (s : State) : Host.Outcome State Fault Refusal :=
  classifyWord (wordAddSubtract immediate subtract rnOrOffset3 rs rd) s

/-- A word of format 3 is classified (R105). -/
def execMoveCompareAddSubtractImmediate (op : ImmediateOp) (rd : RegField) (offset8 : BitVec 8)
    (s : State) : Host.Outcome State Fault Refusal :=
  classifyWord (wordMoveCompareAddSubtractImmediate op rd offset8) s

/-- A word of format 4 is classified (R106). -/
def execAluOperation (op : AluOp) (rs rd : RegField)
    (s : State) : Host.Outcome State Fault Refusal :=
  classifyWord (wordAluOperation op rs rd) s

/-- A word of format 5 is classified (R107). -/
def execHiRegisterOperationsBranchExchange (op : HiOp) (h1 h2 : Bool) (rs rd : RegField)
    (s : State) : Host.Outcome State Fault Refusal :=
  classifyWord (wordHiRegisterOperationsBranchExchange op h1 h2 rs rd) s

/-- A word of format 6 is classified (R108). -/
def execPcRelativeLoad (rd : RegField) (word8 : BitVec 8)
    (s : State) : Host.Outcome State Fault Refusal :=
  classifyWord (wordPcRelativeLoad rd word8) s

/-- A word of format 7 is classified (R109). -/
def execLoadStoreWithRegisterOffset (load byte : Bool) (ro rb rd : RegField)
    (s : State) : Host.Outcome State Fault Refusal :=
  classifyWord (wordLoadStoreWithRegisterOffset load byte ro rb rd) s

/-- A word of format 8 is classified (R110). -/
def execLoadStoreSignExtendedByteHalfword (h b : Bool) (ro rb rd : RegField)
    (s : State) : Host.Outcome State Fault Refusal :=
  classifyWord (wordLoadStoreSignExtendedByteHalfword h b ro rb rd) s

/-- A word of format 9 is classified (R111). -/
def execLoadStoreWithImmediateOffset (byte load : Bool) (offset5 : BitVec 5) (rb rd : RegField)
    (s : State) : Host.Outcome State Fault Refusal :=
  classifyWord (wordLoadStoreWithImmediateOffset byte load offset5 rb rd) s

/-- A word of format 10 is classified (R112). -/
def execLoadStoreHalfword (load : Bool) (offset5 : BitVec 5) (rb rd : RegField)
    (s : State) : Host.Outcome State Fault Refusal :=
  classifyWord (wordLoadStoreHalfword load offset5 rb rd) s

/-- A word of format 11 is classified (R113). -/
def execSpRelativeLoadStore (load : Bool) (rd : RegField) (word8 : BitVec 8)
    (s : State) : Host.Outcome State Fault Refusal :=
  classifyWord (wordSpRelativeLoadStore load rd word8) s

/-- A word of format 12 is classified (R114). -/
def execLoadAddress (sp : Bool) (rd : RegField) (word8 : BitVec 8)
    (s : State) : Host.Outcome State Fault Refusal :=
  classifyWord (wordLoadAddress sp rd word8) s

/-- A word of format 13 is classified (R115). -/
def execAddOffsetToStackPointer (other11 : Bool) (other98 : BitVec 2) (subtract : Bool) (sword7 : BitVec 7)
    (s : State) : Host.Outcome State Fault Refusal :=
  classifyWord (wordAddOffsetToStackPointer other11 other98 subtract sword7) s

/-- A word of format 14 is classified (R116). -/
def execPushPopRegisters (load other9 r : Bool) (rlist : BitVec 8)
    (s : State) : Host.Outcome State Fault Refusal :=
  classifyWord (wordPushPopRegisters load other9 r rlist) s

/-- A word of format 15 is classified (R117). -/
def execMultipleLoadStore (load : Bool) (rb : RegField) (rlist : BitVec 8)
    (s : State) : Host.Outcome State Fault Refusal :=
  classifyWord (wordMultipleLoadStore load rb rlist) s

/-- A word of format 16 is classified (R118). -/
def execConditionalBranch (cond : BitVec 4) (soffset8 : BitVec 8)
    (s : State) : Host.Outcome State Fault Refusal :=
  classifyWord (wordConditionalBranch cond soffset8) s

/-- A word of format 17 is classified (R119). -/
def execSoftwareInterrupt (value8 : BitVec 8)
    (s : State) : Host.Outcome State Fault Refusal :=
  classifyWord (wordSoftwareInterrupt value8) s

/-- A word of format 18 is classified (R120). -/
def execUnconditionalBranch (other11 : Bool) (offset11 : BitVec 11)
    (s : State) : Host.Outcome State Fault Refusal :=
  classifyWord (wordUnconditionalBranch other11 offset11) s

/-- A word of format 19 is classified (R121). -/
def execLongBranchWithLink (h : Bool) (offset : BitVec 11)
    (s : State) : Host.Outcome State Fault Refusal :=
  classifyWord (wordLongBranchWithLink h offset) s

end Sys2Proof.Machine
end

