-- ==== Sys2Proof/Machine/Register.lean ====
section
/-! DEFINITION. The register access operations: READ, WRITE, EXPORT, IMPORT, LABEL
(spec/40_register_access.md). -/

namespace Sys2Proof.Machine

/-- READ(i) (R79). -/
def execRead (i : IndexOperand) (s : State) : Host.Outcome State Fault Refusal :=
  query s fun P => do
    let v ← P.readLogical i
    return .word v

/-- WRITE(i, v) (R80). For i = 16 it is a raw write of the CPSR: unchecked, with no SPSR save (D5). -/
def execWrite (i : IndexOperand) (v : Word) (s : State) : Host.Outcome State Fault Refusal :=
  update s fun P => P.writeLogical i v

/-- EXPORT (R81): a copy of the whole store, in slot order. It does not decode the mode. -/
def execExportStore (s : State) : Host.Outcome State Fault Refusal :=
  query s fun P => .ok (.snapshot P)

/-- IMPORT(w) (R82): the whole store replaced at once; only the length is checked, and the mode is not
decoded. -/
def execImportStore (w : List Word) (s : State) : Host.Outcome State Fault Refusal :=
  update s fun _ => snapshotStore w

/-- The name of a logical index in its unbanked storage (R83, D23). -/
def plainName (i : LogicalIndex) : String :=
  match i.val with
  | 0 => "r0"
  | 1 => "r1"
  | 2 => "r2"
  | 3 => "r3"
  | 4 => "r4"
  | 5 => "r5"
  | 6 => "r6"
  | 7 => "r7"
  | 8 => "r8"
  | 9 => "r9"
  | 10 => "r10"
  | 11 => "r11"
  | 12 => "r12"
  | 13 => "SP"
  | 14 => "LR"
  | 15 => "PC"
  | _ => "CPSR"

/-- The suffix of a bank's register names (R83, D23). -/
def bankSuffix : ProcessorMode → String
  | .user | .system => ""
  | .fiq => "_fiq"
  | .svc => "_svc"
  | .abt => "_abt"
  | .irq => "_irq"
  | .und => "_und"

/-- `name(i, m)`: the label follows the banking of `physical_slot`, so a register has its bank's suffix
exactly where it is redirected (R83). -/
def registerName (i : LogicalIndex) (m : ProcessorMode) : String :=
  if (physicalSlot i m).val = i.val then plainName i else plainName i ++ bankSuffix m

/-- LABEL(i) (R83): the checks are READ's. -/
def execLabel (i : IndexOperand) (s : State) : Host.Outcome State Fault Refusal :=
  query s fun P => do
    let (k, m) ← P.access i
    return .label (registerName k m)

end Sys2Proof.Machine
end

