-- ==== Sys2Proof/Machine/Reset.lean ====
section
/-! DEFINITION. RESET (spec/70_reset_and_hazards.md). -/

namespace Sys2Proof.Machine

/-- RESET (R139): every slot to its reset value and `Faulted` to 0, in any state, a faulted one too (R31,
D24). It returns no result, and the caller's other requests stay with the caller. -/
def execReset (s : State) : Host.Outcome State Fault Refusal :=
  .next { s with slots := Store.reset, faulted := false, response := .none }

end Sys2Proof.Machine
end

