-- ==== Sys2Proof/Machine/Status.lean ====
section
/-! DEFINITION. The status register view: GETMODE, SETMODE, the seven getters and the seven setters
(spec/41_status_register.md). -/

namespace Sys2Proof.Machine

/-- GETMODE (R84). -/
def execGetMode (s : State) : Host.Outcome State Fault Refusal :=
  query s fun P => do
    let m ← P.mode
    return .mode m

/-- SETMODE(t) (R85, R129). -/
def execSetMode (t : ProcessorMode) (s : State) : Host.Outcome State Fault Refusal :=
  update s fun P => P.enterMode t

/-- A getter: the bit as the result (R86 to R92). -/
def getStatus (b : StatusBit) (s : State) : Host.Outcome State Fault Refusal :=
  query s fun P => do
    let x ← P.readStatus b
    return .bit x

/-- A setter (R93 to R99). -/
def setStatus (b : StatusBit) (v : Bool) (s : State) : Host.Outcome State Fault Refusal :=
  update s fun P => P.writeStatus b v

/-- GET_T (R86). -/
def execGetT (s : State) : Host.Outcome State Fault Refusal := getStatus .t s

/-- GET_F (R87). -/
def execGetF (s : State) : Host.Outcome State Fault Refusal := getStatus .f s

/-- GET_I (R88). -/
def execGetI (s : State) : Host.Outcome State Fault Refusal := getStatus .i s

/-- GET_V (R89). -/
def execGetV (s : State) : Host.Outcome State Fault Refusal := getStatus .v s

/-- GET_C (R90). -/
def execGetC (s : State) : Host.Outcome State Fault Refusal := getStatus .c s

/-- GET_Z (R91). -/
def execGetZ (s : State) : Host.Outcome State Fault Refusal := getStatus .z s

/-- GET_N (R92). -/
def execGetN (s : State) : Host.Outcome State Fault Refusal := getStatus .n s

/-- SET_T(v) (R93). -/
def execSetT (v : Bool) (s : State) : Host.Outcome State Fault Refusal := setStatus .t v s

/-- SET_F(v) (R94). -/
def execSetF (v : Bool) (s : State) : Host.Outcome State Fault Refusal := setStatus .f v s

/-- SET_I(v) (R95). -/
def execSetI (v : Bool) (s : State) : Host.Outcome State Fault Refusal := setStatus .i v s

/-- SET_V(v) (R96). -/
def execSetV (v : Bool) (s : State) : Host.Outcome State Fault Refusal := setStatus .v v s

/-- SET_C(v) (R97). -/
def execSetC (v : Bool) (s : State) : Host.Outcome State Fault Refusal := setStatus .c v s

/-- SET_Z(v) (R98). -/
def execSetZ (v : Bool) (s : State) : Host.Outcome State Fault Refusal := setStatus .z v s

/-- SET_N(v) (R99). -/
def execSetN (v : Bool) (s : State) : Host.Outcome State Fault Refusal := setStatus .n v s

end Sys2Proof.Machine
end

