-- ==== Sys2Proof/Machine/Dispatch.lean ====
section
/-! DEFINITION. One arm per constructor of Instr, each a direct call of its meaning. -/

namespace Sys2Proof.Machine

def exec (i : Instr) (s : State) : Host.Outcome State Fault Refusal :=
  match i with
  | .moveShiftedRegister op offset5 rs rd => Sys2Proof.Machine.execMoveShiftedRegister op offset5 rs rd s
  | .addSubtract immediate subtract rnOrOffset3 rs rd => Sys2Proof.Machine.execAddSubtract immediate subtract rnOrOffset3 rs rd s
  | .moveCompareAddSubtractImmediate op rd offset8 => Sys2Proof.Machine.execMoveCompareAddSubtractImmediate op rd offset8 s
  | .aluOperation op rs rd => Sys2Proof.Machine.execAluOperation op rs rd s
  | .hiRegisterOperationsBranchExchange op h1 h2 rs rd => Sys2Proof.Machine.execHiRegisterOperationsBranchExchange op h1 h2 rs rd s
  | .pcRelativeLoad rd word8 => Sys2Proof.Machine.execPcRelativeLoad rd word8 s
  | .loadStoreWithRegisterOffset load byte ro rb rd => Sys2Proof.Machine.execLoadStoreWithRegisterOffset load byte ro rb rd s
  | .loadStoreSignExtendedByteHalfword h b ro rb rd => Sys2Proof.Machine.execLoadStoreSignExtendedByteHalfword h b ro rb rd s
  | .loadStoreWithImmediateOffset byte load offset5 rb rd => Sys2Proof.Machine.execLoadStoreWithImmediateOffset byte load offset5 rb rd s
  | .loadStoreHalfword load offset5 rb rd => Sys2Proof.Machine.execLoadStoreHalfword load offset5 rb rd s
  | .spRelativeLoadStore load rd word8 => Sys2Proof.Machine.execSpRelativeLoadStore load rd word8 s
  | .loadAddress sp rd word8 => Sys2Proof.Machine.execLoadAddress sp rd word8 s
  | .addOffsetToStackPointer other11 other98 subtract sword7 => Sys2Proof.Machine.execAddOffsetToStackPointer other11 other98 subtract sword7 s
  | .pushPopRegisters load other9 r rlist => Sys2Proof.Machine.execPushPopRegisters load other9 r rlist s
  | .multipleLoadStore load rb rlist => Sys2Proof.Machine.execMultipleLoadStore load rb rlist s
  | .conditionalBranch cond soffset8 => Sys2Proof.Machine.execConditionalBranch cond soffset8 s
  | .softwareInterrupt value8 => Sys2Proof.Machine.execSoftwareInterrupt value8 s
  | .unconditionalBranch other11 offset11 => Sys2Proof.Machine.execUnconditionalBranch other11 offset11 s
  | .longBranchWithLink h offset => Sys2Proof.Machine.execLongBranchWithLink h offset s
  | .read k => Sys2Proof.Machine.execRead k s
  | .write k v => Sys2Proof.Machine.execWrite k v s
  | .exportStore => Sys2Proof.Machine.execExportStore s
  | .importStore w => Sys2Proof.Machine.execImportStore w s
  | .label k => Sys2Proof.Machine.execLabel k s
  | .getMode => Sys2Proof.Machine.execGetMode s
  | .setMode t => Sys2Proof.Machine.execSetMode t s
  | .getT => Sys2Proof.Machine.execGetT s
  | .getF => Sys2Proof.Machine.execGetF s
  | .getI => Sys2Proof.Machine.execGetI s
  | .getV => Sys2Proof.Machine.execGetV s
  | .getC => Sys2Proof.Machine.execGetC s
  | .getZ => Sys2Proof.Machine.execGetZ s
  | .getN => Sys2Proof.Machine.execGetN s
  | .setT v => Sys2Proof.Machine.execSetT v s
  | .setF v => Sys2Proof.Machine.execSetF v s
  | .setI v => Sys2Proof.Machine.execSetI v s
  | .setV v => Sys2Proof.Machine.execSetV v s
  | .setC v => Sys2Proof.Machine.execSetC v s
  | .setZ v => Sys2Proof.Machine.execSetZ v s
  | .setN v => Sys2Proof.Machine.execSetN v s
  | .classify w => Sys2Proof.Machine.execClassify w s
  | .reset => Sys2Proof.Machine.execReset s

end Sys2Proof.Machine
end

