-- ==== Sys2Proof/Machine/Step.lean ====
section
/-! DEFINITION. One step: the block serves the oldest request of its caller (spec/00_scope.md R7,
spec/20_memory.md R42). -/

namespace Sys2Proof.Machine

/-- One step. With no request pending the passive block does nothing, its state persisting unchanged
(R7, R137; notes/assumptions/4.md). A request is refused before anything else is looked at (R127);
otherwise its operation runs. -/
def step (s : State) : Host.Outcome State Fault Refusal :=
  match s.pending with
  | [] => .next s
  | r :: rest =>
    match decode r with
    | .ok i => exec i { s with pending := rest }
    | .error e => .refused (.undecodable e)

/-- The state with the request of an opcode-table word issued next (notes/assumptions/5.md and 7.md). -/
def State.withFetchWord (s : State) (nbits w : Nat) : State :=
  { s with pending := tableRequest nbits w :: s.pending }

end Sys2Proof.Machine
end

