-- ==== Sys2Proof/Safety.lean ====
section
/-! DEFINITION. The predicates claims are stated in: when an operation is defined, which operations decode
the mode and which only read, and the invariant of the fatal-fault latch. -/

namespace Sys2Proof.Machine

/-- The instance is not faulted, so its operations are defined (spec/10_state.md R31). -/
abbrev State.Live (s : State) : Prop := s.faulted = false

/-- The mode field holds the code of `m` (R16). -/
abbrev State.InMode (s : State) (m : ProcessorMode) : Prop := s.slots.mode? = some m

/-- The mode field holds none of the seven codes: the state a raw WRITE(16, v) or an IMPORT can leave
(R80, R82, R125). -/
abbrev State.ModeInvalid (s : State) : Prop := s.slots.mode? = none

/-- What holds of the fatal-fault latch along every run: it is 1 exactly when the last answer is
`InvalidMode`, that error's mode bits still stand in the CPSR, and they are no mode code
(R31, R125). -/
def State.LatchInv (s : State) : Prop :=
  (s.faulted = true ↔ ∃ b, s.response = .error (.invalidMode b)) ∧
  ∀ b, s.response = .error (.invalidMode b) → b = s.slots.modeBits ∧ s.slots.mode? = none

/-- The slots that hold an SPSR (R18, R29). -/
def isSpsrSlot (k : Slot) : Bool :=
  k == 24 || k == 27 || k == 30 || k == 33 || k == 36

/-- The format of a THUMB instruction, none for a port operation (R52). -/
def format? : Instr → Option InstructionFormat
  | .moveShiftedRegister .. => some .moveShiftedRegister
  | .addSubtract .. => some .addSubtract
  | .moveCompareAddSubtractImmediate .. => some .moveCompareAddSubtractImmediate
  | .aluOperation .. => some .aluOperation
  | .hiRegisterOperationsBranchExchange .. => some .hiRegisterOperationsBranchExchange
  | .pcRelativeLoad .. => some .pcRelativeLoad
  | .loadStoreWithRegisterOffset .. => some .loadStoreWithRegisterOffset
  | .loadStoreSignExtendedByteHalfword .. => some .loadStoreSignExtendedByteHalfword
  | .loadStoreWithImmediateOffset .. => some .loadStoreWithImmediateOffset
  | .loadStoreHalfword .. => some .loadStoreHalfword
  | .spRelativeLoadStore .. => some .spRelativeLoadStore
  | .loadAddress .. => some .loadAddress
  | .addOffsetToStackPointer .. => some .addOffsetToStackPointer
  | .pushPopRegisters .. => some .pushPopRegisters
  | .multipleLoadStore .. => some .multipleLoadStore
  | .conditionalBranch .. => some .conditionalBranch
  | .softwareInterrupt .. => some .softwareInterrupt
  | .unconditionalBranch .. => some .unconditionalBranch
  | .longBranchWithLink .. => some .longBranchWithLink
  | .read .. | .write .. | .exportStore | .importStore .. | .label .. | .getMode | .setMode ..
  | .getT | .getF | .getI | .getV | .getC | .getZ | .getN
  | .setT .. | .setF .. | .setI .. | .setV .. | .setC .. | .setZ .. | .setN ..
  | .classify .. | .reset => none

/-- The operations that decode the mode (spec/60_exceptions.md R126). -/
def decodesMode : Instr → Bool
  | .read .. | .write .. | .label .. | .getMode | .setMode ..
  | .getT | .getF | .getI | .getV | .getC | .getZ | .getN
  | .setT .. | .setF .. | .setI .. | .setV .. | .setC .. | .setZ .. | .setN .. => true
  | .exportStore | .importStore .. | .classify .. | .reset
  | .moveShiftedRegister .. | .addSubtract .. | .moveCompareAddSubtractImmediate .. | .aluOperation ..
  | .hiRegisterOperationsBranchExchange .. | .pcRelativeLoad .. | .loadStoreWithRegisterOffset ..
  | .loadStoreSignExtendedByteHalfword .. | .loadStoreWithImmediateOffset .. | .loadStoreHalfword ..
  | .spRelativeLoadStore .. | .loadAddress .. | .addOffsetToStackPointer .. | .pushPopRegisters ..
  | .multipleLoadStore .. | .conditionalBranch .. | .softwareInterrupt .. | .unconditionalBranch ..
  | .longBranchWithLink .. => false

/-- The operations that may write the store: WRITE, IMPORT, SETMODE, the setters and RESET. Every other
one is of read type (spec/20_memory.md R40). -/
def mayWrite : Instr → Bool
  | .write .. | .importStore .. | .setMode .. | .reset
  | .setT .. | .setF .. | .setI .. | .setV .. | .setC .. | .setZ .. | .setN .. => true
  | .read .. | .exportStore | .label .. | .getMode
  | .getT | .getF | .getI | .getV | .getC | .getZ | .getN | .classify ..
  | .moveShiftedRegister .. | .addSubtract .. | .moveCompareAddSubtractImmediate .. | .aluOperation ..
  | .hiRegisterOperationsBranchExchange .. | .pcRelativeLoad .. | .loadStoreWithRegisterOffset ..
  | .loadStoreSignExtendedByteHalfword .. | .loadStoreWithImmediateOffset .. | .loadStoreHalfword ..
  | .spRelativeLoadStore .. | .loadAddress .. | .addOffsetToStackPointer .. | .pushPopRegisters ..
  | .multipleLoadStore .. | .conditionalBranch .. | .softwareInterrupt .. | .unconditionalBranch ..
  | .longBranchWithLink .. => false

/-- The operand is one with which the operation raises no error on its own account: an index of at most
16, a snapshot of 37 words (R79, R80, R82, R83). -/
def operandInRange : Instr → Bool
  | .read i | .write i _ | .label i => i.toNat ≤ 16
  | .importStore w => w.length == 37
  | .exportStore | .getMode | .setMode .. | .reset
  | .getT | .getF | .getI | .getV | .getC | .getZ | .getN | .classify ..
  | .setT .. | .setF .. | .setI .. | .setV .. | .setC .. | .setZ .. | .setN ..
  | .moveShiftedRegister .. | .addSubtract .. | .moveCompareAddSubtractImmediate .. | .aluOperation ..
  | .hiRegisterOperationsBranchExchange .. | .pcRelativeLoad .. | .loadStoreWithRegisterOffset ..
  | .loadStoreSignExtendedByteHalfword .. | .loadStoreWithImmediateOffset .. | .loadStoreHalfword ..
  | .spRelativeLoadStore .. | .loadAddress .. | .addOffsetToStackPointer .. | .pushPopRegisters ..
  | .multipleLoadStore .. | .conditionalBranch .. | .softwareInterrupt .. | .unconditionalBranch ..
  | .longBranchWithLink .. => true

/-- The reference pattern of a format as (mask, match), the last column of the table of R52. The excluded
cases of formats 1 and 16 are in `matchesReference`. -/
def referencePattern : InstructionFormat → Half × Half
  | .moveShiftedRegister => (0xE000#16, 0x0000#16)
  | .addSubtract => (0xF800#16, 0x1800#16)
  | .moveCompareAddSubtractImmediate => (0xE000#16, 0x2000#16)
  | .aluOperation => (0xFC00#16, 0x4000#16)
  | .hiRegisterOperationsBranchExchange => (0xFC00#16, 0x4400#16)
  | .pcRelativeLoad => (0xF800#16, 0x4800#16)
  | .loadStoreWithRegisterOffset => (0xF200#16, 0x5000#16)
  | .loadStoreSignExtendedByteHalfword => (0xF200#16, 0x5200#16)
  | .loadStoreWithImmediateOffset => (0xE000#16, 0x6000#16)
  | .loadStoreHalfword => (0xF000#16, 0x8000#16)
  | .spRelativeLoadStore => (0xF000#16, 0x9000#16)
  | .loadAddress => (0xF000#16, 0xA000#16)
  | .addOffsetToStackPointer => (0xFF00#16, 0xB000#16)
  | .pushPopRegisters => (0xF600#16, 0xB400#16)
  | .multipleLoadStore => (0xF000#16, 0xC000#16)
  | .conditionalBranch => (0xF000#16, 0xD000#16)
  | .softwareInterrupt => (0xFF00#16, 0xDF00#16)
  | .unconditionalBranch => (0xF800#16, 0xE000#16)
  | .longBranchWithLink => (0xF000#16, 0xF000#16)

/-- A word matches a format's reference pattern, its excluded case left out (R52, R102). -/
def matchesReference (f : InstructionFormat) (w : Half) : Prop :=
  w &&& (referencePattern f).1 = (referencePattern f).2 ∧
  (f = .moveShiftedRegister → w.extractLsb' 11 2 ≠ 0b11#2) ∧
  (f = .conditionalBranch → w.extractLsb' 8 4 ≠ 0b1111#4)

end Sys2Proof.Machine
end

