-- ==== Sys2Proof/Certificates/Slice0/Obligations.lean ====
section
/-! DEFINITION. The statements about the block, each named after what it says. They are stated and never
proved here. -/

open Sys2Proof Sys2Proof.Machine

/-! ## Reset and modes -/

/-- R33: after reset every slot is zero but the CPSR, which holds the User code, and Faulted is 0. -/
def Obligations.ResetStateIsUserModeAndZero : Prop :=
  (∀ k : Slot, State.reset.slots.slot k = if k = 16 then 0x00000010#32 else 0x00000000#32) ∧
  State.reset.InMode .user ∧ State.reset.faulted = false

/-- R139: RESET answers the default state from every state, a faulted one too, with no result; it is the
only operation that leaves a faulted state, and doing it twice is doing it once. Its command word is
0xA00. That RESET clears Faulted is the spec's own decision D24, and that no other operation leaves a
faulted state (its stop being a fault) is the model's (notes/assumptions/9.md). -/
def Obligations.ResetReturnsEveryStateToTheDefault : Prop :=
  (∀ s : State, ∃ t, exec .reset s = .next t ∧
    (∀ k : Slot, t.slots.slot k = if k = 16 then 0x00000010#32 else 0x00000000#32) ∧
    t.faulted = false ∧ t.response = .none ∧ exec .reset t = .next t) ∧
  (∀ (i : Instr) (s t : State), s.faulted = true → exec i s = .next t → i = .reset) ∧
  encode .reset = .command 0xA00#12 .none

/-- R16: `mode()` is the mode whose code stands in `CPSR[4:0]`, and for any other value the fatal error
`InvalidMode` with those bits. -/
def Obligations.ModeDecodesExactlyTheSevenCodes : Prop :=
  ∀ P : Store,
    let codes : List (ProcessorMode × ModeBits) :=
      [(.user, 0b10000#5), (.fiq, 0b10001#5), (.irq, 0b10010#5), (.svc, 0b10011#5),
        (.abt, 0b10111#5), (.und, 0b11011#5), (.system, 0b11111#5)]
    let b : ModeBits := (P.slot 16).extractLsb' 0 5
    (∀ p ∈ codes, b = p.2 → P.mode = .ok p.1) ∧
    ((∀ p ∈ codes, b ≠ p.2) → P.mode = .error (.invalidMode b)) ∧
    (BlockError.invalidMode b).fatal = true

/-! ## Redirection -/

/-- R20: the redirection, case by case; a logical read and a logical write go through it with the mode
decoded from the live CPSR. The table of R21 is derived from it. -/
def Obligations.PhysicalSlotIsTheRedirectionTable : Prop :=
  (∀ (i : LogicalIndex) (m : ProcessorMode), i ≤ 7 ∨ i = 15 ∨ i = 16 →
    (physicalSlot i m).val = i.val) ∧
  (∀ (i : LogicalIndex) (m : ProcessorMode), 8 ≤ i → i ≤ 12 →
    (physicalSlot i m).val = if m = .fiq then i.val + 9 else i.val) ∧
  (∀ p ∈ [(ProcessorMode.user, (13 : Slot), (14 : Slot)), (.system, 13, 14), (.fiq, 22, 23),
      (.irq, 31, 32), (.svc, 25, 26), (.abt, 28, 29), (.und, 34, 35)],
    physicalSlot 13 p.1 = p.2.1 ∧ physicalSlot 14 p.1 = p.2.2) ∧
  (∀ (P : Store) (i : IndexOperand) (v : Word) (m : ProcessorMode) (h : i.toNat < 17), P.mode = .ok m →
    P.readLogical i = .ok (P.slot (physicalSlot ⟨i.toNat, h⟩ m)) ∧
    P.writeLogical i v = .ok (P.setSlot (physicalSlot ⟨i.toNat, h⟩ m) v))

/-- R22 (a table the spec marks as derived from R18, R20 and R21): which modes reach which slots, that
no SPSR slot is reached, and that two indices never share a slot within one mode. -/
def Obligations.RedirectionReachesEachBankInItsOwnMode : Prop :=
  (∀ i m, physicalSlot i m ∉ [(24 : Slot), 27, 30, 33, 36]) ∧
  (∀ i m, 17 ≤ physicalSlot i m → physicalSlot i m ≤ 23 → m = .fiq) ∧
  (∀ p ∈ [(ProcessorMode.svc, (25 : Slot)), (.abt, 28), (.irq, 31), (.und, 34)], ∀ i m,
    physicalSlot i m = p.2 ∨ physicalSlot i m = p.2 + 1 → m = p.1) ∧
  (∀ (k : Slot) (m : ProcessorMode), 8 ≤ k → k ≤ 12 → ((∃ i, physicalSlot i m = k) ↔ m ≠ .fiq)) ∧
  (∀ (k : Slot) (m : ProcessorMode), k = 13 ∨ k = 14 →
    ((∃ i, physicalSlot i m = k) ↔ m = .user ∨ m = .system)) ∧
  (∀ i j m, physicalSlot i m = physicalSlot j m → i = j)

/-! ## READ and WRITE -/

/-- R79: READ returns the redirected slot and writes nothing; an index above 16 raises `OutOfRange`
whatever the mode, and otherwise an invalid mode field raises the fatal `InvalidMode` (for an unbanked
index that is the spec's own decision, spec/92_eei_decisions.md D3). -/
def Obligations.ReadReturnsTheRedirectedSlot : Prop :=
  (∀ (s : State) (i : IndexOperand) (m : ProcessorMode) (h : i.toNat < 17), s.Live → s.InMode m →
    exec (.read i) s =
      .next { s with response := .word (s.slots.slot (physicalSlot ⟨i.toNat, h⟩ m)) }) ∧
  (∀ (s : State) (i : IndexOperand), s.Live → 16 < i.toNat →
    exec (.read i) s = .next { s with response := .error (.outOfRange i) }) ∧
  (∀ (s : State) (i : IndexOperand), s.Live → i.toNat ≤ 16 → s.ModeInvalid →
    exec (.read i) s =
      .next { s with faulted := true, response := .error (.invalidMode s.slots.modeBits) }) ∧
  (∀ i : IndexOperand, encode (.read i) = .command (i.setWidth 12) .none)

/-- R80: WRITE stores the word, unchecked, in the slot the mode in effect before it redirects the index
to (for index 16 the whole CPSR, with no SPSR save: the spec's decision D5), changes no other slot and
returns nothing; its errors are READ's (for an unbanked index the spec's decision D3). -/
def Obligations.WriteStoresInTheRedirectedSlot : Prop :=
  (∀ (s : State) (i : IndexOperand) (v : Word) (m : ProcessorMode) (h : i.toNat < 17),
    s.Live → s.InMode m → ∃ t, exec (.write i v) s = .next t ∧
      (∀ k : Slot, t.slots.slot k =
        if k = physicalSlot ⟨i.toNat, h⟩ m then v else s.slots.slot k) ∧
      t.faulted = false ∧ t.pending = s.pending ∧ t.response = .none) ∧
  (∀ (s : State) (i : IndexOperand) (v : Word), s.Live → 16 < i.toNat →
    exec (.write i v) s = .next { s with response := .error (.outOfRange i) }) ∧
  (∀ (s : State) (i : IndexOperand) (v : Word), s.Live → i.toNat ≤ 16 → s.ModeInvalid →
    exec (.write i v) s =
      .next { s with faulted := true, response := .error (.invalidMode s.slots.modeBits) }) ∧
  (∀ (i : IndexOperand) (v : Word),
    encode (.write i v) = .command (0x100#12 + i.setWidth 12) (.word v))

/-- R42: a WRITE followed by a READ of the same index, in the same mode, returns the written value. For
index 16 the written value decides the mode, so it must keep the mode it was written in. -/
def Obligations.WriteThenReadReturnsTheValue : Prop :=
  ∀ (s : State) (i : IndexOperand) (v : Word) (m : ProcessorMode), s.Live → s.InMode m → i.toNat ≤ 16 →
    (i.toNat = 16 → v.extractLsb' 0 5 = m.code) →
    ∃ t u, exec (.write i v) s = .next t ∧ t.InMode m ∧ exec (.read i) t = .next u ∧
      u.response = .word v

/-- R23: r0 to r7 are never banked: what is written in one mode is read back in every mode. -/
def Obligations.LowRegistersAreNeverBanked : Prop :=
  ∀ (s : State) (i : IndexOperand) (v : Word) (m m' : ProcessorMode), s.Live → s.InMode m → i.toNat ≤ 7 →
    ∃ t u w, exec (.write i v) s = .next t ∧ exec (.setMode m') t = .next u ∧
      exec (.read i) u = .next w ∧ w.response = .word v

/-- R24: r8 to r12 are banked for FIQ only: a value written in one mode is read back in another exactly
when both are Fiq or neither is, and otherwise the other bank's value, as it was before, is read. -/
def Obligations.HighRegistersAreBankedForFiqOnly : Prop :=
  ∀ (s : State) (i : IndexOperand) (v : Word) (m m' : ProcessorMode) (k : Slot), s.Live → s.InMode m →
    8 ≤ i.toNat → i.toNat ≤ 12 → k.val = (if m' = .fiq then i.toNat + 9 else i.toNat) →
    ∃ t u w, exec (.write i v) s = .next t ∧ exec (.setMode m') t = .next u ∧
      exec (.read i) u = .next w ∧
      w.response = .word (if m = .fiq ↔ m' = .fiq then v else s.slots.slot k)

/-- R25: r13 and r14 are banked per mode, User and System sharing one pair: a value written in one mode
is read back in another exactly when the two modes are the same or are User and System, and otherwise
the other mode's own register, as it was before, is read. -/
def Obligations.StackAndLinkAreBankedPerMode : Prop :=
  ∀ (s : State) (i : IndexOperand) (v : Word) (m m' : ProcessorMode), s.Live → s.InMode m →
    i = 13#5 ∨ i = 14#5 →
    ∀ base ∈ [(ProcessorMode.user, 13), (.system, 13), (.fiq, 22), (.svc, 25), (.abt, 28), (.irq, 31),
      (.und, 34)], base.1 = m' →
    ∀ k : Slot, k.val = base.2 + (i.toNat - 13) →
    ∃ t u w, exec (.write i v) s = .next t ∧ exec (.setMode m') t = .next u ∧
      exec (.read i) u = .next w ∧
      w.response = .word (if m = m' ∨ (m = .user ∧ m' = .system) ∨ (m = .system ∧ m' = .user) then v
        else s.slots.slot k)

/-! ## EXPORT, IMPORT, LABEL -/

/-- R81: EXPORT returns a copy of the 37 slots in order and writes nothing, whatever the mode field. -/
def Obligations.ExportReturnsTheWholeStore : Prop :=
  (∀ s : State, s.Live → ∃ P : Store, exec .exportStore s = .next { s with response := .snapshot P } ∧
    ∀ k : Slot, P.slot k = s.slots.slot k) ∧
  encode .exportStore = .command 0x200#12 .none

/-- R82: IMPORT of 37 words replaces every slot at once, whatever the mode field was or becomes; any
other length raises `SnapshotSizeMismatch` with nothing written; importing what EXPORT returned leaves
the store as it is; it is no way out of the faulted state. That a snapshot with an invalid mode code is
accepted is the spec's own decision D6, and that IMPORT on a faulted instance stops with a fault is the
model's (notes/assumptions/9.md). -/
def Obligations.ImportReplacesTheWholeStore : Prop :=
  (∀ (s : State) (w : List Word) (h : w.length = 37), s.Live → ∃ t, exec (.importStore w) s = .next t ∧
    (∀ k : Slot, t.slots.slot k = w[k.val]'(by omega)) ∧
    t.faulted = false ∧ t.pending = s.pending ∧ t.response = .none) ∧
  (∀ (s : State) (w : List Word), s.Live → w.length ≠ 37 →
    exec (.importStore w) s = .next { s with response := .error (.snapshotSizeMismatch w.length) }) ∧
  (∀ (s t : State) (P : Store), s.Live → exec .exportStore s = .next t → t.response = .snapshot P →
    exec (.importStore P.toList) t = .next { s with response := .none }) ∧
  (∀ (s : State) (w : List Word), s.faulted = true → exec (.importStore w) s = .fault .instanceFaulted) ∧
  (∀ w : List Word, encode (.importStore w) = .command 0x300#12 (.words w))

/-- R83: LABEL returns the name of the register the index is redirected to: the plain name where the
slot is not banked, with the bank's suffix where it is. It writes nothing and its errors are READ's. The
string table and the errors are the spec's own decision D23 (notes/assumptions/6.md). -/
def Obligations.LabelNamesTheRedirectedRegister : Prop :=
  (∀ (s : State) (i : IndexOperand) (m : ProcessorMode) (h : i.toNat < 17), s.Live → s.InMode m →
    ∀ name ∈ (["r0", "r1", "r2", "r3", "r4", "r5", "r6", "r7", "r8", "r9", "r10", "r11", "r12", "SP", "LR",
      "PC", "CPSR"] : List String)[i.toNat]?,
    ∀ suffix ∈ [(ProcessorMode.user, ""), (.system, ""), (.fiq, "_fiq"), (.svc, "_svc"), (.abt, "_abt"),
      (.irq, "_irq"), (.und, "_und")], suffix.1 = m →
    ∀ shown : String,
    shown = (if (physicalSlot ⟨i.toNat, h⟩ m).val = i.toNat then name else name ++ suffix.2) →
    exec (.label i) s = .next { s with response := .label shown }) ∧
  (∀ (s : State) (i : IndexOperand), s.Live → 16 < i.toNat →
    exec (.label i) s = .next { s with response := .error (.outOfRange i) }) ∧
  (∀ (s : State) (i : IndexOperand), s.Live → i.toNat ≤ 16 → s.ModeInvalid →
    exec (.label i) s =
      .next { s with faulted := true, response := .error (.invalidMode s.slots.modeBits) }) ∧
  (∀ i : IndexOperand, encode (.label i) = .command (0x400#12 + i.setWidth 12) .none)

/-! ## GETMODE and SETMODE -/

/-- R84: GETMODE returns the mode coded in `CPSR[4:0]` and writes nothing; an invalid code raises the
fatal `InvalidMode`. -/
def Obligations.GetModeReturnsTheDecodedMode : Prop :=
  (∀ (s : State) (m : ProcessorMode), s.Live → (s.slots.slot 16).extractLsb' 0 5 = m.code →
    exec .getMode s = .next { s with response := .mode m }) ∧
  (∀ s : State, s.Live → (∀ m : ProcessorMode, (s.slots.slot 16).extractLsb' 0 5 ≠ m.code) →
    exec .getMode s = .next { s with
      faulted := true, response := .error (.invalidMode ((s.slots.slot 16).extractLsb' 0 5)) }) ∧
  encode .getMode = .command 0x500#12 .none

/-- R85, R129: SETMODE saves the whole pre-transition CPSR in the target's SPSR (User and System have
none) and replaces only the mode bits of the CPSR; no other slot changes (no LR or PC write), no mask is
set and T is kept; an invalid current mode raises `InvalidMode` with nothing written. The decode of the
current mode and the save on re-entry are the spec's own decisions D8 and D7. -/
def Obligations.SetModeSavesTheStatusAndSwitches : Prop :=
  (∀ (s : State) (m u : ProcessorMode), s.Live → s.InMode m → ∃ t, exec (.setMode u) s = .next t ∧
    (∀ n, (t.slots.slot 16).getLsbD n =
      if n < 5 then u.code.getLsbD n else (s.slots.slot 16).getLsbD n) ∧
    (∀ k : Slot, k ≠ 16 → t.slots.slot k =
      if (u, k) ∈ [(ProcessorMode.fiq, (24 : Slot)), (.svc, 27), (.abt, 30), (.irq, 33), (.und, 36)]
      then s.slots.slot 16 else s.slots.slot k) ∧
    t.InMode u ∧ t.faulted = false ∧ t.pending = s.pending ∧ t.response = .none) ∧
  (∀ (s : State) (u : ProcessorMode), s.Live → s.ModeInvalid →
    exec (.setMode u) s =
      .next { s with faulted := true, response := .error (.invalidMode s.slots.modeBits) }) ∧
  (∀ p ∈ [(ProcessorMode.user, 0x610#12), (.fiq, 0x611#12), (.irq, 0x612#12), (.svc, 0x613#12),
      (.abt, 0x617#12), (.und, 0x61B#12), (.system, 0x61F#12)],
    encode (.setMode p.1) = .command p.2 .none)

/-- R130 (nesting, which the spec marks as derived from R85): entering a mode again overwrites its SPSR
with the CPSR of the moment, whose mode bits are the mode's own code. That the save happens even though
the mode is already in effect is the spec's own decision D7. -/
def Obligations.ReentryOverwritesTheSavedStatus : Prop :=
  ∀ (s : State) (m u : ProcessorMode), s.Live → s.InMode m →
    ∀ p ∈ [(ProcessorMode.fiq, (24 : Slot)), (.svc, 27), (.abt, 30), (.irq, 33), (.und, 36)], p.1 = u →
    ∃ t t', exec (.setMode u) s = .next t ∧ exec (.setMode u) t = .next t' ∧
      t'.slots.slot p.2 = t.slots.slot 16 ∧ (t'.slots.slot p.2).extractLsb' 0 5 = u.code ∧
      (∀ k : Slot, k ≠ p.2 → t'.slots.slot k = t.slots.slot k)

/-- R130 (return): the block has no return operation; a caller that reads the SPSR through EXPORT and
stores it with WRITE(16) has the pre-entry CPSR, mode and flags, back, and the raw write saves nothing.
-/
def Obligations.SavedStatusIsRestoredByExportAndRawWrite : Prop :=
  ∀ (s : State) (m u : ProcessorMode), s.Live → s.InMode m →
    ∀ p ∈ [(ProcessorMode.fiq, (24 : Slot)), (.svc, 27), (.abt, 30), (.irq, 33), (.und, 36)], p.1 = u →
    ∃ t e P r, exec (.setMode u) s = .next t ∧ exec .exportStore t = .next e ∧
      e.response = .snapshot P ∧ exec (.write 16#5 (P.slot p.2)) e = .next r ∧
      r.slots.slot 16 = s.slots.slot 16 ∧ r.InMode m ∧
      (∀ k : Slot, k ≠ 16 → r.slots.slot k = t.slots.slot k)

/-- The document's scenario T8, from any mode to any mode and back: every logical register, the CPSR
included, reads as it did before. -/
def Obligations.ModeRoundTripKeepsEveryRegister : Prop :=
  ∀ (s : State) (m u : ProcessorMode) (i : IndexOperand), s.Live → s.InMode m → i.toNat ≤ 16 →
    ∃ t t' a b, exec (.setMode u) s = .next t ∧ exec (.setMode m) t = .next t' ∧
      exec (.read i) s = .next a ∧ exec (.read i) t' = .next b ∧ a.response = b.response

/-! ## Flags -/

/-- R86 to R92: each getter returns its one bit of the CPSR and writes nothing; an invalid mode field
raises `InvalidMode` (the spec's own decision D3). -/
def Obligations.GettersReadTheirBitOfTheStatus : Prop :=
  ∀ p ∈ [(Instr.getT, 5, 0x705#12), (.getF, 6, 0x706#12), (.getI, 7, 0x707#12), (.getV, 28, 0x71C#12),
      (.getC, 29, 0x71D#12), (.getZ, 30, 0x71E#12), (.getN, 31, 0x71F#12)],
    (∀ (s : State) (m : ProcessorMode), s.Live → s.InMode m →
      exec p.1 s = .next { s with response := .bit ((s.slots.slot 16).getLsbD p.2.1) }) ∧
    (∀ s : State, s.Live → s.ModeInvalid →
      exec p.1 s =
        .next { s with faulted := true, response := .error (.invalidMode s.slots.modeBits) }) ∧
    encode p.1 = .command p.2.2 .none

/-- R93 to R99: each setter writes its one bit of the CPSR, keeps the other 31 bits and every other
slot, and returns nothing; an invalid mode field raises `InvalidMode` and the bit is not written. That a
setter decodes the mode first is the spec's own decision D3 (notes/assumptions/11.md). -/
def Obligations.SettersWriteTheirBitOnly : Prop :=
  ∀ v : Bool, ∀ p ∈ [(Instr.setT v, 5, 0x805#12), (.setF v, 6, 0x806#12), (.setI v, 7, 0x807#12),
      (.setV v, 28, 0x81C#12), (.setC v, 29, 0x81D#12), (.setZ v, 30, 0x81E#12), (.setN v, 31, 0x81F#12)],
    (∀ (s : State) (m : ProcessorMode), s.Live → s.InMode m → ∃ t, exec p.1 s = .next t ∧
      (∀ n, (t.slots.slot 16).getLsbD n = if n = p.2.1 then v else (s.slots.slot 16).getLsbD n) ∧
      (∀ k : Slot, k ≠ 16 → t.slots.slot k = s.slots.slot k) ∧
      t.faulted = false ∧ t.pending = s.pending ∧ t.response = .none) ∧
    (∀ s : State, s.Live → s.ModeInvalid →
      exec p.1 s =
        .next { s with faulted := true, response := .error (.invalidMode s.slots.modeBits) }) ∧
    encode p.1 = .command (if v then p.2.2 + 0x020#12 else p.2.2) .none

/-! ## Errors and the fatal-fault latch -/

/-- R31: Faulted is 0 after reset; an instruction sets it exactly when it raises `InvalidMode`; while it
is 1 no operation but RESET is defined, the model stopping, and RESET clears it. "Turning that into a
latch is this spec's choice" (R31, decisions D4 and D24); that the stop is a fault is
notes/assumptions/9.md. -/
def Obligations.FaultedInstanceStopsAllButReset : Prop :=
  State.reset.faulted = false ∧
  (∀ (i : Instr) (s t : State), s.Live → exec i s = .next t →
    (t.faulted = true ↔ ∃ b, t.response = .error (.invalidMode b))) ∧
  (∀ (i : Instr) (s : State), s.faulted = true → i ≠ .reset → exec i s = .fault .instanceFaulted) ∧
  (∀ s : State, ∃ t, exec .reset s = .next t ∧ t.faulted = false)

/-- R126: under an invalid mode field, the operations that decode the mode (READ, WRITE and LABEL with
an index in range, GETMODE, SETMODE, the getters and the setters) raise `InvalidMode`, and no other
instruction ever does. For the unbanked indices it is how "the spec reads" its source (R126, D3). -/
def Obligations.InvalidModeIsRaisedByEveryDecodingOperation : Prop :=
  (∀ (i : Instr) (s : State), s.Live → s.ModeInvalid → decodesMode i = true → operandInRange i = true →
    exec i s = .next { s with faulted := true, response := .error (.invalidMode s.slots.modeBits) }) ∧
  (∀ (i : Instr) (s t : State) (b : ModeBits), decodesMode i = false → exec i s = .next t →
    t.response ≠ .error (.invalidMode b))

/-- R124: a non-fatal error is returned in place of the result and leaves every piece of state as it
was. -/
def Obligations.NonFatalErrorLeavesTheState : Prop :=
  ∀ (i : Instr) (s t : State) (e : BlockError), exec i s = .next t → t.response = .error e →
    (∀ b, e ≠ .invalidMode b) → t.slots = s.slots ∧ t.faulted = false ∧ t.pending = s.pending

/-- R125, whose last sentence the spec marks as derived: the fatal error sets Faulted and writes nothing
else, it records the mode bits of the CPSR, the instance is then stopped for every operation but RESET,
and it can only arise after WRITE(16, v) or IMPORT: every other instruction keeps a valid mode field
valid. That the stop is a fault is the model's (notes/assumptions/9.md). -/
def Obligations.InvalidModeIsFatalAndWritesNothing : Prop :=
  (∀ (i : Instr) (s t : State) (b : ModeBits), exec i s = .next t →
    t.response = .error (.invalidMode b) →
    t = { s with faulted := true, response := .error (.invalidMode b) } ∧
    b = s.slots.modeBits ∧ s.ModeInvalid ∧
    ∀ j, j ≠ .reset → exec j t = .fault .instanceFaulted) ∧
  (∀ (i : Instr) (s t : State) (m : ProcessorMode), s.InMode m → exec i s = .next t →
    (∀ v, i ≠ .write 16#5 v) → (∀ w, i ≠ .importStore w) → ∃ m', t.InMode m')

/-- R127: a refused command is refused before anything else, a faulted state included; the index check
comes before the mode decode; IMPORT raises the length error alone, CLASSIFY `Unclassifiable` alone, and
SETMODE and the flag accessors `InvalidMode` alone. The order is the spec's own decision D13, the source
not stating one. -/
def Obligations.ErrorsHaveTheStatedPriority : Prop :=
  (∀ (s : State) (r : Request) (rest : List Request) (e : DecodeError), s.pending = r :: rest →
    decode r = .error e → step s = .refused (.undecodable e)) ∧
  (∀ (s : State) (i : IndexOperand), s.Live → s.ModeInvalid → 16 < i.toNat →
    ∀ j, j = .read i ∨ (∃ v, j = .write i v) ∨ j = .label i →
      exec j s = .next { s with response := .error (.outOfRange i) }) ∧
  (∀ (s t : State) (w : List Word) (e : BlockError), exec (.importStore w) s = .next t →
    t.response = .error e → e = .snapshotSizeMismatch w.length) ∧
  (∀ (s t : State) (w : Half) (e : BlockError), exec (.classify w) s = .next t →
    t.response = .error e → e = .unclassifiable w) ∧
  (∀ (s t : State) (j : Instr) (e : BlockError),
    (∃ u, j = .setMode u) ∨ (∃ b, j = StatusBit.getter b) ∨ (∃ b v, j = StatusBit.setter b v) →
    exec j s = .next t → t.response = .error e → ∃ b, e = .invalidMode b)

/-- R134 (the spec's own decision D17): no privilege is enforced: in every mode, every operation with an
operand in range completes with no error. The THUMB formats are among the operations by the model's
reading (notes/assumptions/8.md). -/
def Obligations.EveryOperationIsAllowedInEveryMode : Prop :=
  ∀ (i : Instr) (s : State) (m : ProcessorMode), s.Live → s.InMode m → operandInRange i = true →
    ∃ t, exec i s = .next t ∧ t.faulted = false ∧ ∀ e, t.response ≠ .error e

/-! ## Frames and whole-machine rules -/

/-- R40: the operations of read type (READ, EXPORT, LABEL, GETMODE, the getters, CLASSIFY and the THUMB
words) change no slot. The THUMB words are among them by the model's reading (notes/assumptions/8.md).
-/
def Obligations.ReadTypeOperationsChangeNoSlot : Prop :=
  ∀ (i : Instr) (s t : State), mayWrite i = false → exec i s = .next t →
    ∀ k : Slot, t.slots.slot k = s.slots.slot k

/-- The frame of the writing operations, whichever way they answer: WRITE changes only the slot its
index is redirected to; SETMODE only the CPSR and the target's SPSR; a setter only the CPSR. -/
def Obligations.WritingOperationsChangeOnlyTheirSlots : Prop :=
  (∀ (s t : State) (i : IndexOperand) (v : Word) (k : Slot), exec (.write i v) s = .next t →
    (∀ (m : ProcessorMode) (h : i.toNat < 17), s.InMode m → k ≠ physicalSlot ⟨i.toNat, h⟩ m) →
    t.slots.slot k = s.slots.slot k) ∧
  (∀ (s t : State) (u : ProcessorMode) (k : Slot), exec (.setMode u) s = .next t → k ≠ 16 →
    (u, k) ∉ [(ProcessorMode.fiq, (24 : Slot)), (.svc, 27), (.abt, 30), (.irq, 33), (.und, 36)] →
    t.slots.slot k = s.slots.slot k) ∧
  (∀ (s t : State) (v : Bool) (k : Slot), k ≠ 16 →
    ∀ j ∈ [Instr.setT v, .setF v, .setI v, .setV v, .setC v, .setZ v, .setN v], exec j s = .next t →
    t.slots.slot k = s.slots.slot k)

/-- R30: no operation writes a flag as a side effect: a bit of the CPSR from 5 up, the unnamed bits 27:8
among them, changes only by its own setter, WRITE(16, v), IMPORT and RESET. -/
def Obligations.StatusBitsChangeOnlyByTheirWriters : Prop :=
  ∀ (i : Instr) (s t : State) (n : Nat), exec i s = .next t → 5 ≤ n →
    (∀ v, i ≠ .write 16#5 v) → (∀ w, i ≠ .importStore w) → i ≠ .reset →
    (∀ p ∈ [(5, Instr.setT), (6, .setF), (7, .setI), (28, .setV), (29, .setC), (30, .setZ), (31, .setN)],
      p.1 = n → ∀ v, i ≠ p.2 v) →
    (t.slots.slot 16).getLsbD n = (s.slots.slot 16).getLsbD n

/-- R133: the mode changes by SETMODE, WRITE(16, v), IMPORT and RESET, to the mode each of them names,
and by nothing else. -/
def Obligations.ModeChangesOnlyByFourOperations : Prop :=
  (∀ (i : Instr) (s t : State), exec i s = .next t → (∀ u, i ≠ .setMode u) →
    (∀ v, i ≠ .write 16#5 v) → (∀ w, i ≠ .importStore w) → i ≠ .reset →
    t.slots.modeBits = s.slots.modeBits) ∧
  (∀ (s : State) (m u : ProcessorMode), s.Live → s.InMode m →
    ∃ t, exec (.setMode u) s = .next t ∧ t.slots.modeBits = u.code ∧
      ∀ k : Slot, (u, k) ∈ [(ProcessorMode.fiq, (24 : Slot)), (.svc, 27), (.abt, 30), (.irq, 33), (.und, 36)] →
        t.slots.slot k = s.slots.slot 16) ∧
  (∀ (s : State) (m : ProcessorMode) (v : Word), s.Live → s.InMode m →
    ∃ t, exec (.write 16#5 v) s = .next t ∧ t.slots.modeBits = v.extractLsb' 0 5 ∧
      ∀ k : Slot, isSpsrSlot k = true → t.slots.slot k = s.slots.slot k) ∧
  (∀ (s : State) (w : List Word) (h : w.length = 37), s.Live →
    ∃ t, exec (.importStore w) s = .next t ∧ t.slots.modeBits = w[16].extractLsb' 0 5) ∧
  (∀ s : State, ∃ t, exec .reset s = .next t ∧ t.InMode .user)

/-- R144: after a SETMODE, a WRITE(16, v) or an IMPORT the new mode is in effect, and the very next
access goes by it. -/
def Obligations.ModeChangeTakesEffectAtTheNextAccess : Prop :=
  (∀ (s : State) (m u : ProcessorMode) (i : IndexOperand) (h : i.toNat < 16), s.Live → s.InMode m →
    ∃ t r, exec (.setMode u) s = .next t ∧ t.InMode u ∧ exec (.read i) t = .next r ∧
      r.response = .word (s.slots.slot (physicalSlot ⟨i.toNat, by omega⟩ u))) ∧
  (∀ (s : State) (m u : ProcessorMode) (v : Word) (i : IndexOperand) (h : i.toNat < 16), s.Live →
    s.InMode m → v.extractLsb' 0 5 = u.code →
    ∃ t r, exec (.write 16#5 v) s = .next t ∧ t.InMode u ∧ exec (.read i) t = .next r ∧
      r.response = .word (s.slots.slot (physicalSlot ⟨i.toNat, by omega⟩ u))) ∧
  (∀ (s : State) (u : ProcessorMode) (w : List Word) (hw : w.length = 37) (i : IndexOperand)
    (h : i.toNat < 17), s.Live → w[16].extractLsb' 0 5 = u.code →
    ∃ t r, exec (.importStore w) s = .next t ∧ t.InMode u ∧ exec (.read i) t = .next r ∧
      r.response = .word (w[(physicalSlot ⟨i.toNat, h⟩ u).val]'(by omega)))

/-- R29: an SPSR slot changes only by SETMODE of its own mode, which stores the pre-transition CPSR, by
IMPORT and by RESET. -/
def Obligations.SavedStatusChangesOnlyByEntryImportAndReset : Prop :=
  ∀ (i : Instr) (s t : State), exec i s = .next t → (∀ w, i ≠ .importStore w) → i ≠ .reset →
    ∀ p ∈ [(ProcessorMode.fiq, (24 : Slot)), (.svc, 27), (.abt, 30), (.irq, 33), (.und, 36)],
      (i ≠ .setMode p.1 → t.slots.slot p.2 = s.slots.slot p.2) ∧
      (i = .setMode p.1 → ∀ m, s.InMode m → t.slots.slot p.2 = s.slots.slot 16)

/-- R29, R130: EXPORT is the only operation that reads an SPSR: on two states that differ in nothing but
their SPSR slots, every other instruction gives the same answer and again two states that differ in
nothing but their SPSR slots. -/
def Obligations.SavedStatusReachesNoAnswerButExport : Prop :=
  ∀ (i : Instr) (s s' t : State), i ≠ .exportStore → s.faulted = s'.faulted → s.pending = s'.pending →
    (∀ k : Slot, isSpsrSlot k = false → s.slots.slot k = s'.slots.slot k) → exec i s = .next t →
    ∃ t', exec i s' = .next t' ∧ t.response = t'.response ∧ t.faulted = t'.faulted ∧
      t.pending = t'.pending ∧
      ∀ k : Slot, isSpsrSlot k = false → t.slots.slot k = t'.slots.slot k

/-! ## The classifier -/

/-- R50: a word satisfies a mask exactly when every bit the mask has is 1 in the word; a mask never
requires a 0. -/
def Obligations.MaskTestRequiresOnesOnly : Prop :=
  ∀ w mask : Half, containsMask w mask = true ↔
    ∀ n, n < 16 → mask.getLsbD n = true → w.getLsbD n = true

/-- R51 (over the spec's decided table D9): which masks of the decided table are contained in which,
format by format. -/
def Obligations.MasksNestAsTabulated : Prop :=
  ∀ p ∈ [(InstructionFormat.moveShiftedRegister, (List.range 20).drop 2), (.addSubtract, [17]),
      (.moveCompareAddSubtractImmediate, [9, 12, 13, 14, 18, 19]),
      (.aluOperation, [5, 6, 7, 8, 9, 15, 16, 17, 18, 19]), (.hiRegisterOperationsBranchExchange, [17]),
      (.pcRelativeLoad, [17]), (.loadStoreWithRegisterOffset, [8, 16, 17, 19]),
      (.loadStoreSignExtendedByteHalfword, [17]), (.loadStoreWithImmediateOffset, [18, 19]),
      (.loadStoreHalfword, [11, 12, 13, 14, 15, 16, 17, 18, 19])] ++
    [(InstructionFormat.spRelativeLoadStore, [13, 14, 16, 17, 19]), (.loadAddress, [13, 14, 18, 19]),
      (.addOffsetToStackPointer, [14, 19]), (.pushPopRegisters, []),
      (.multipleLoadStore, [16, 17, 18, 19]), (.conditionalBranch, [17, 19]), (.softwareInterrupt, []),
      (.unconditionalBranch, [19]), (.longBranchWithLink, [])],
    ∀ g ∈ formatOrder, g ≠ p.1 →
      (containsMask (formatMask g) (formatMask p.1) = true ↔ g.number ∈ p.2)

/-- R53: the test order is by descending unsigned value of the mask, as "the spec reads" its source
(decision D10), over the decided masks (D9), and every format is in it. -/
def Obligations.MasksAreTriedInDescendingOrder : Prop :=
  formatOrder.map (fun f => (f.number, formatMask f)) =
    [(19, 0xF000#16), (18, 0xE000#16), (17, 0xDF00#16), (16, 0xD000#16), (15, 0xC000#16), (14, 0xB400#16),
      (13, 0xB000#16), (12, 0xA000#16), (11, 0x9000#16), (10, 0x8000#16), (9, 0x6000#16), (8, 0x5200#16),
      (7, 0x5000#16), (6, 0x4800#16), (5, 0x4400#16), (4, 0x4000#16), (3, 0x2000#16), (2, 0x1800#16),
      (1, 0x0000#16)] ∧
  formatOrder.Pairwise (fun f g => (formatMask g).toNat < (formatMask f).toNat) ∧
  ∀ f, f ∈ formatOrder

/-- R100: over any table the result is the first format of the order whose mask the word contains, and
there is none exactly when no mask of the order is contained; CLASSIFY returns that result for the
decided table, or `Unclassifiable` where there is none (which is at no word of that table, R101), in any
mode and under an invalid mode field, and writes nothing. The table is the spec's own decision (D9, D10;
notes/assumptions/10.md), and so is that CLASSIFY does not decode the mode (D25). -/
def Obligations.ClassifyReturnsTheFirstContainedMask : Prop :=
  (∀ (T : FormatTable) (w : Half) (f : InstructionFormat), classifyWith T w = some f ↔
    ∃ before after, T.order = before ++ f :: after ∧ w &&& T.mask f = T.mask f ∧
      ∀ g ∈ before, w &&& T.mask g ≠ T.mask g) ∧
  (∀ (T : FormatTable) (w : Half), classifyWith T w = none ↔
    ∀ g ∈ T.order, w &&& T.mask g ≠ T.mask g) ∧
  (∀ (s : State) (w : Half), s.Live → ∀ r : Response,
    r = (match classifyWith formatTable w with
      | some f => .format f
      | none => .error (.unclassifiable w)) →
    exec (.classify w) s = .next { s with response := r }) ∧
  (∀ w : Half, encode (.classify w) = .command 0x900#12 (.half w))

/-- R103 to R112 (derived by the spec from its decided table D9, D10): for formats 1 to 10, the mask,
its position in the test order, exactly which words classify as the format, and an example word with the
formats whose masks it satisfies. -/
def Obligations.RegionsOfFormatsOneToTen : Prop :=
  ∀ p ∈ [(InstructionFormat.moveShiftedRegister, 0x0000#16, 19, [(0x0000, 0x17FF)], 0x0000#16, [1]),
      (.addSubtract, 0x1800#16, 18, [(0x1800, 0x1FFF)], 0x1888#16, [1, 2]),
      (.moveCompareAddSubtractImmediate, 0x2000#16, 17, [(0x2000, 0x3FFF)], 0x2001#16, [1, 3]),
      (.aluOperation, 0x4000#16, 16, [(0x4000, 0x43FF)], 0x4008#16, [1, 4]),
      (.hiRegisterOperationsBranchExchange, 0x4400#16, 15, [(0x4400, 0x47FF)], 0x4770#16, [1, 4, 5]),
      (.pcRelativeLoad, 0x4800#16, 14, [(0x4800, 0x4FFF)], 0x4801#16, [1, 4, 6]),
      (.loadStoreWithRegisterOffset, 0x5000#16, 13,
        [(0x5000, 0x51FF), (0x5400, 0x55FF), (0x5800, 0x59FF), (0x5C00, 0x5DFF)], 0x5888#16,
        [1, 2, 4, 6, 7]),
      (.loadStoreSignExtendedByteHalfword, 0x5200#16, 12,
        [(0x5200, 0x53FF), (0x5600, 0x57FF), (0x5A00, 0x5BFF), (0x5E00, 0x5FFF)], 0x5E88#16,
        [1, 2, 4, 5, 6, 7, 8]),
      (.loadStoreWithImmediateOffset, 0x6000#16, 11, [(0x6000, 0x7FFF)], 0x6808#16, [1, 3, 4, 6, 9]),
      (.loadStoreHalfword, 0x8000#16, 10, [(0x8000, 0x8FFF)], 0x8808#16, [1, 10])],
    formatMask p.1 = p.2.1 ∧ formatOrder[p.2.2.1 - 1]? = some p.1 ∧
    (∀ w : Half, classify w = some p.1 ↔ ∃ r ∈ p.2.2.2.1, r.1 ≤ w.toNat ∧ w.toNat ≤ r.2) ∧
    classify p.2.2.2.2.1 = some p.1 ∧
    ∀ g ∈ formatOrder, (containsMask p.2.2.2.2.1 (formatMask g) = true ↔ g.number ∈ p.2.2.2.2.2)

/-- R113 to R121 (derived by the spec from its decided table D9, D10): for formats 11 to 19, the mask,
its position in the test order, exactly which words classify as the format, and an example word with the
formats whose masks it satisfies. -/
def Obligations.RegionsOfFormatsElevenToNineteen : Prop :=
  ∀ p ∈ [(InstructionFormat.spRelativeLoadStore, 0x9000#16, 9, [(0x9000, 0x9FFF)], 0x9801#16,
        [1, 2, 10, 11]),
      (.loadAddress, 0xA000#16, 8, [(0xA000, 0xAFFF)], 0xA801#16, [1, 3, 10, 12]),
      (.addOffsetToStackPointer, 0xB000#16, 7, [(0xB000, 0xB3FF), (0xB800, 0xBBFF)], 0xB082#16,
        [1, 3, 10, 11, 12, 13]),
      (.pushPopRegisters, 0xB400#16, 6, [(0xB400, 0xB7FF), (0xBC00, 0xBFFF)], 0xB500#16,
        [1, 3, 10, 11, 12, 13, 14]),
      (.multipleLoadStore, 0xC000#16, 5, [(0xC000, 0xCFFF)], 0xC803#16, [1, 4, 6, 10, 15]),
      (.conditionalBranch, 0xD000#16, 4, [(0xD000, 0xDEFF)], 0xD0FE#16, [1, 4, 7, 10, 11, 15, 16]),
      (.softwareInterrupt, 0xDF00#16, 3, [(0xDF00, 0xDFFF)], 0xDF00#16,
        [1, 2, 4, 5, 6, 7, 8, 10, 11, 15, 16, 17]),
      (.unconditionalBranch, 0xE000#16, 2, [(0xE000, 0xEFFF)], 0xE7FE#16,
        [1, 3, 4, 5, 9, 10, 12, 15, 18]),
      (.longBranchWithLink, 0xF000#16, 1, [(0xF000, 0xFFFF)], 0xF000#16,
        [1, 3, 4, 7, 9, 10, 11, 12, 13, 15, 16, 18, 19])],
    formatMask p.1 = p.2.1 ∧ formatOrder[p.2.2.1 - 1]? = some p.1 ∧
    (∀ w : Half, classify w = some p.1 ↔ ∃ r ∈ p.2.2.2.1, r.1 ≤ w.toNat ∧ w.toNat ≤ r.2) ∧
    classify p.2.2.2.2.1 = some p.1 ∧
    ∀ g ∈ formatOrder, (containsMask p.2.2.2.2.1 (formatMask g) = true ↔ g.number ∈ p.2.2.2.2.2)

/-- R101 (derived by the spec from its decided table D9, D10): every one of the 65,536 words has exactly
one format, CLASSIFY never raises `Unclassifiable`, and the number of words of each format is the
table's. -/
def Obligations.ClassifyIsTotalWithTheTabulatedCounts : Prop :=
  (∀ w : Half, ∃ f, classify w = some f ∧
    ∀ s : State, s.Live → exec (.classify w) s = .next { s with response := .format f }) ∧
  (∀ (s t : State) (w w' : Half), exec (.classify w) s = .next t →
    t.response ≠ .error (.unclassifiable w')) ∧
  (∀ counts : List (InstructionFormat × Nat), counts =
      [(.moveShiftedRegister, 6144), (.addSubtract, 2048), (.moveCompareAddSubtractImmediate, 8192),
        (.aluOperation, 1024), (.hiRegisterOperationsBranchExchange, 1024), (.pcRelativeLoad, 2048),
        (.loadStoreWithRegisterOffset, 2048), (.loadStoreSignExtendedByteHalfword, 2048),
        (.loadStoreWithImmediateOffset, 8192), (.loadStoreHalfword, 4096)] ++
      [(.spRelativeLoadStore, 4096), (.loadAddress, 4096), (.addOffsetToStackPointer, 2048),
        (.pushPopRegisters, 2048), (.multipleLoadStore, 4096), (.conditionalBranch, 3840),
        (.softwareInterrupt, 256), (.unconditionalBranch, 4096), (.longBranchWithLink, 4096)] →
    (counts.map Prod.snd).sum = 65536 ∧
    ∀ p ∈ counts, Nat.count (fun n => classify (BitVec.ofNat 16 n) = some p.1) 65536 = p.2)

/-- R102 (derived by the spec from its decided table D9, D10): every word that matches a format's
reference pattern, with its excluded cases, classifies as that format; ordering by the number of
required bits would send 0xFFFF, 0xF400 and 0x3800 to formats 17, 14 and 2, and ascending order every
word to format 1. -/
def Obligations.ClassifyAgreesWithTheReferencePatterns : Prop :=
  (∀ (f : InstructionFormat) (w : Half), matchesReference f w → classify w = some f) ∧
  (∀ w : Half, classifyWith { mask := formatMask, order := formatOrder.reverse } w =
    some .moveShiftedRegister) ∧
  (∀ byBits : List InstructionFormat, byBits =
      [.softwareInterrupt, .pushPopRegisters, .longBranchWithLink, .loadStoreSignExtendedByteHalfword,
        .addOffsetToStackPointer, .conditionalBranch, .unconditionalBranch, .addSubtract,
        .hiRegisterOperationsBranchExchange, .pcRelativeLoad, .loadStoreWithRegisterOffset,
        .loadStoreWithImmediateOffset, .spRelativeLoadStore, .loadAddress, .multipleLoadStore] ++
      [.moveCompareAddSubtractImmediate, .aluOperation, .loadStoreHalfword, .moveShiftedRegister] →
    classifyWith { mask := formatMask, order := byBits } 0xFFFF#16 = some .softwareInterrupt ∧
    classifyWith { mask := formatMask, order := byBits } 0xF400#16 = some .pushPopRegisters ∧
    classifyWith { mask := formatMask, order := byBits } 0x3800#16 = some .addSubtract)

/-- R122: CLASSIFY reads nothing of the register file: on any two live states, whatever their slots,
mode and T bit, the answer is the same, and no slot changes. That the same holds of a THUMB word from
the fetch stage, whose meaning is the classifier's answer, is the model's reading
(notes/assumptions/8.md), and so is the limit to live states (notes/assumptions/9.md). -/
def Obligations.ClassifyIsIndependentOfTheRegisterFile : Prop :=
  ∀ (i : Instr) (s s' : State), s.Live → s'.Live → (∃ w, i = .classify w) ∨ (format? i).isSome = true →
    ∃ r, exec i s = .next { s with response := r } ∧ exec i s' = .next { s' with response := r }

/-- A well-formed instruction of each of the 19 THUMB formats completes, answers its own format and
changes nothing else, whatever the mode field holds. That its meaning is the classifier's answer for its
word is the model's reading (notes/assumptions/8.md); which format that is, is R103 to R121 over the
spec's decided table (D9, D10; notes/assumptions/10.md). The two ill-formed operand values are in
ExcludedOperandValuesAnswerTheOtherFormat. -/
def Obligations.ThumbInstructionsAnswerTheirFormat : Prop :=
  ∀ (i : Instr) (f : InstructionFormat) (s : State), format? i = some f → i.wf = true → s.Live →
    exec i s = .next { s with response := .format f }

/-- The two ill-formed operand values make words of another format, which is what the classifier answers
for them: Op 11 of format 1 answers format 2 (R54), Cond 1111 of format 16 answers format 17 (R69). That
a THUMB instruction's meaning is the classifier's answer is the model's reading
(notes/assumptions/8.md), the table is the spec's own decision (D9, D10; notes/assumptions/10.md), and
running an instruction that no request decodes to is the model's choice (notes/assumptions/16.md). -/
def Obligations.ExcludedOperandValuesAnswerTheOtherFormat : Prop :=
  (∀ (s : State) (offset5 : BitVec 5) (rs rd : RegField), s.Live →
    exec (.moveShiftedRegister 0b11#2 offset5 rs rd) s = .next { s with response := .format .addSubtract }) ∧
  (∀ (s : State) (soffset8 : BitVec 8), s.Live →
    exec (.conditionalBranch 0b1111#4 soffset8) s =
      .next { s with response := .format .softwareInterrupt })

/-! ## Encoding and the step -/

/-- Decoding the encoding of a well-formed instruction gives it back, with every operand. Formats 13, 14
and 18 have the bits the classifier ignores as operands (notes/assumptions/12.md). -/
def Obligations.DecodeOfEncodeIsTheInstruction : Prop :=
  ∀ i : Instr, i.wf = true → decode (encode i) = .ok i

/-- What the decoder accepts is well formed and is encoded by exactly the request it was read from:
every request has one meaning, and no bit of it is dropped. That no data operand is dropped rests on the
model's refusal of one of the wrong kind (notes/assumptions/3.md), and that no bit of a word of formats
13, 14 and 18 is, on the operands the model gives them (notes/assumptions/12.md). -/
def Obligations.EncodeOfDecodeIsTheRequest : Prop :=
  ∀ (r : Request) (i : Instr), decode r = .ok i → i.wf = true ∧ encode i = r

/-- R76 (its last table is derived by the spec): reserved operation codes, a SETMODE operand that is no
mode code and a flag position outside the seven are refused; a non-zero unused bit of field A is
refused; no THUMB word is, and the words the ARMv4T reference leaves undefined get the format the table
gives them. The refusal of a SETMODE operand is the spec's own decision D32, and the formats of the
undefined words are its D34 over its table (D9, D10; notes/assumptions/10.md, 12.md). -/
def Obligations.MalformedCommandsAreRefused : Prop :=
  (∀ (cw : CommandWord) (d : DataOperand), 0xB00 ≤ cw.toNat →
    decode (.command cw d) = .error (.reservedOperation (cw.extractLsb' 8 4))) ∧
  (∀ m : ModeBits, (∀ t : ProcessorMode, m ≠ t.code) →
    decode (.command (0x600#12 + m.setWidth 12) .none) = .error (.notAModeCode m)) ∧
  (∀ b : BitVec 5, b ∉ [5#5, 6#5, 7#5, 28#5, 29#5, 30#5, 31#5] →
    decode (.command (0x700#12 + b.setWidth 12) .none) = .error (.notAFlagPosition b) ∧
    decode (.command (0x800#12 + b.setWidth 12) .none) = .error (.notAFlagPosition b) ∧
    decode (.command (0x820#12 + b.setWidth 12) .none) = .error (.notAFlagPosition b)) ∧
  (∀ p ∈ [(0x0, 5), (0x1, 5), (0x2, 0), (0x3, 0), (0x4, 5), (0x5, 0), (0x6, 5), (0x7, 5), (0x8, 6), (0x9, 0),
      (0xA, 0)],
    ∀ (cw : CommandWord) (d : DataOperand), cw.toNat / 256 = p.1 → 2 ^ p.2 ≤ cw.toNat % 256 →
      decode (.command cw d) = .error (.unusedFieldBits cw)) ∧
  (∀ w : Half, ∃ i, decode (.thumb w) = .ok i) ∧
  (∀ p ∈ [(0xB100, 0xB3FF, InstructionFormat.addOffsetToStackPointer), (0xB600, 0xB7FF, .pushPopRegisters),
      (0xB800, 0xBBFF, .addOffsetToStackPointer), (0xBE00, 0xBFFF, .pushPopRegisters),
      (0xDE00, 0xDEFF, .conditionalBranch), (0xE800, 0xEFFF, .unconditionalBranch)],
    ∀ w : Half, p.1 ≤ w.toNat → w.toNat ≤ p.2.1 → classify w = some p.2.2)

/-- Words written out from the spec's encodings decode to the instructions they stand for. -/
def Obligations.WordsOfTheTablesDecode : Prop :=
  decode (.command 0b000000001101#12 .none) = .ok (.read 13#5) ∧
  decode (.command 0b000100001101#12 (.word 0x03007F00#32)) = .ok (.write 13#5 0x03007F00#32) ∧
  decode (.command 0b011000010011#12 .none) = .ok (.setMode .svc) ∧
  decode (.command 0b100000111111#12 .none) = .ok (.setN true) ∧
  decode (.command 0b011100011101#12 .none) = .ok .getC ∧
  decode (.command 0b101000000000#12 .none) = .ok .reset ∧
  decode (.thumb 0b0001100010001000#16) = .ok (.addSubtract false false 2#3 1#3 0#3) ∧
  decode (.thumb 0b1101111100000101#16) = .ok (.softwareInterrupt 5#8) ∧
  decode (.thumb 0b1101000011111110#16) = .ok (.conditionalBranch 0b0000#4 0xFE#8)

/-- A step serves the oldest request: it runs the decoded instruction on the state with that request
taken from the queue, and refuses a request that decodes to none (R7, R11). With no request pending it
leaves the state as it is: that, and the queue itself, are the model's choice (notes/assumptions/1.md,
4.md). -/
def Obligations.StepRunsTheDecodedInstruction : Prop :=
  (∀ (s : State) (r : Request) (rest : List Request) (i : Instr), s.pending = r :: rest →
    decode r = .ok i → step s = exec i { s with pending := rest }) ∧
  (∀ (s : State) (r : Request) (rest : List Request) (e : DecodeError), s.pending = r :: rest →
    decode r = .error e → step s = .refused (.undecodable e)) ∧
  (∀ s : State, s.pending = [] → step s = .next s)

/-- R42: requests are served one at a time in the order they were issued: a step that goes on has taken
exactly the oldest one, and no instruction, RESET included, touches the rest. The queue is the model's
own field (notes/assumptions/1.md). -/
def Obligations.StepTakesExactlyTheOldestRequest : Prop :=
  ∀ s t : State, step s = .next t → t.pending = s.pending.tail

/-! ## The invariant of the latch -/

/-- The latch invariant holds after reset, where nothing has been answered (the answer port is the
model's own field, notes/assumptions/2.md). -/
def Obligations.LatchInvariantHoldsAtReset : Prop := State.reset.LatchInv

/-- R31, R125: every step keeps the latch invariant: Faulted is 1 exactly when the last answer is
`InvalidMode`, and then the mode bits it recorded still stand in the CPSR and are no mode code. The
answer port is the model's own field (notes/assumptions/2.md). -/
def Obligations.EveryStepKeepsTheLatchInvariant : Prop :=
  ∀ s t : State, s.LatchInv → step s = .next t → t.LatchInv
end

