-- ==== Sys2Proof/Laws/Classify.lean ====
section
/-! SUPPORT. The classifier reads only the high byte of a word, since no mask of the table requires a low
bit (R52). So what it answers for any word is settled by the 256 high bytes, and for the word of a
format by the few operand bits that stand in the high byte. -/

namespace Sys2Proof

/-- No mask of the table requires a bit of the low byte. -/
theorem formatMask_low (f : InstructionFormat) {i : Nat} (h : i < 8) : (formatMask f).getLsbD i = false := by
  have key : ∀ f : InstructionFormat, (formatMask f).extractLsb' 0 8 = 0#8 := by
    intro f
    cases f <;> decide
  have := congrArg (fun x => x.getLsbD i) (key f)
  simpa only [BitVec.getLsbD_extractLsb', h, decide_true, Bool.true_and, Nat.zero_add,
    BitVec.getLsbD_zero] using this

/-- The high byte of a word. -/
def highByte (w : Half) : BitVec 8 := w.extractLsb' 8 8

theorem getLsbD_highByte (w : Half) (i : Nat) :
    (highByte w).getLsbD i = (decide (i < 8) && w.getLsbD (8 + i)) := by
  simp only [highByte, BitVec.getLsbD_extractLsb']

/-- A mask of the table is contained in a word exactly when it is contained in its high byte. -/
theorem containsMask_highByte (w : Half) (f : InstructionFormat) :
    containsMask w (formatMask f) = containsMask (highByte w ++ 0#8) (formatMask f) := by
  unfold containsMask
  congr 1
  apply BitVec.eq_of_getLsbD_eq
  intro i hi
  rw [BitVec.getLsbD_and, BitVec.getLsbD_and]
  by_cases h : i < 8
  · rw [formatMask_low f h, Bool.and_false, Bool.and_false]
  · rw [BitVec.getLsbD_append, if_neg h, getLsbD_highByte, decide_eq_true (by omega), Bool.true_and,
      show 8 + (i - 8) = i by omega]

/-- The classifier reads the high byte alone. -/
theorem classify_highByte (w : Half) : classify w = classify (highByte w ++ 0#8) := by
  unfold classify classifyWith
  congr 1
  funext f
  exact containsMask_highByte w f

/-- The answer for a word from its high byte, given bit by bit. -/
theorem classify_of_high {w : Half} {n : Nat} (a : BitVec n) (hn : n = 8)
    (h : ∀ i, i < 8 → w.getLsbD (8 + i) = a.getLsbD i) : classify w = classify (a.cast hn ++ 0#8) := by
  rw [classify_highByte]
  congr 2
  exact BitVec.eq_of_getLsbD_eq fun i hi => by
    rw [getLsbD_highByte, decide_eq_true hi, Bool.true_and, BitVec.getLsbD_cast, h i hi]

/-- Every word has a format (R101). -/
theorem classify_isSome (w : Half) : (classify w).isSome = true := by
  rw [classify_highByte]
  generalize highByte w = a
  revert a
  decide

theorem highByte_toNat (w : Half) : (highByte w).toNat = w.toNat / 256 := by
  simp [highByte, BitVec.extractLsb'_toNat, Nat.shiftRight_eq_div_pow]
  have := w.isLt
  omega

/-- A format's words are given by ranges of whole high bytes (R103 to R121). -/
theorem classify_region {f : InstructionFormat} {ranges : List (Nat × Nat)}
    (aligned : ∀ r ∈ ranges, r.1 % 256 = 0 ∧ r.2 % 256 = 255)
    (h : ∀ b : BitVec 8, classify (b ++ 0#8) = some f ↔
      ∃ r ∈ ranges, r.1 / 256 ≤ b.toNat ∧ b.toNat ≤ r.2 / 256) (w : Half) :
    classify w = some f ↔ ∃ r ∈ ranges, r.1 ≤ w.toNat ∧ w.toNat ≤ r.2 := by
  rw [classify_highByte, h, highByte_toNat]
  constructor
  · rintro ⟨r, hr, h1, h2⟩
    have := aligned r hr
    exact ⟨r, hr, by omega, by omega⟩
  · rintro ⟨r, hr, h1, h2⟩
    have := aligned r hr
    exact ⟨r, hr, by omega, by omega⟩

/-- A bit of an assembled word, as a bit of its fields. -/
theorem getLsbD_toHalf {n : Nat} (x : BitVec n) (h : n = 16) (i : Nat) :
    (toHalf x h).getLsbD i = x.getLsbD i := by
  simp only [toHalf, BitVec.getLsbD_cast]

/-! ## The format of each format's word -/

theorem classify_wordMoveShiftedRegister {op : BitVec 2} (h : op ≠ 0b11#2) (offset5 : BitVec 5) (rs rd : RegField) :
    classify (wordMoveShiftedRegister op offset5 rs rd) = some .moveShiftedRegister := by
  rw [classify_of_high (0b000#3 ++ op ++ offset5.extractLsb' 2 3) rfl]
  · generalize offset5.extractLsb' 2 3 = o
    revert op o
    decide
  · intro i hi
    interval_cases i <;>
      simp only [wordMoveShiftedRegister, getLsbD_toHalf, BitVec.getLsbD_append, -Nat.reduceAdd] <;>
      simp

theorem classify_wordAddSubtract (i p : Bool) (n : BitVec 3) (rs rd : RegField) :
    classify (wordAddSubtract i p n rs rd) = some .addSubtract := by
  rw [classify_of_high (0b00011#5 ++ bit i ++ bit p ++ n.extractLsb' 2 1) rfl]
  · generalize n.extractLsb' 2 1 = o
    revert i p o
    decide
  · intro i hi
    interval_cases i <;>
      simp only [wordAddSubtract, getLsbD_toHalf, BitVec.getLsbD_append, -Nat.reduceAdd] <;>
      simp

theorem classify_wordMoveCompareAddSubtractImmediate (op : ImmediateOp) (rd : RegField) (offset8 : BitVec 8) :
    classify (wordMoveCompareAddSubtractImmediate op rd offset8) = some .moveCompareAddSubtractImmediate := by
  rw [classify_of_high (0b001#3 ++ op.code ++ rd) rfl]
  · generalize op.code = c
    revert c rd
    decide
  · intro i hi
    interval_cases i <;>
      simp only [wordMoveCompareAddSubtractImmediate, getLsbD_toHalf, BitVec.getLsbD_append, -Nat.reduceAdd] <;>
      simp

theorem classify_wordAluOperation (op : AluOp) (rs rd : RegField) :
    classify (wordAluOperation op rs rd) = some .aluOperation := by
  rw [classify_of_high (0b010000#6 ++ op.code.extractLsb' 2 2) rfl]
  · generalize op.code.extractLsb' 2 2 = o
    revert o
    decide
  · intro i hi
    interval_cases i <;>
      simp only [wordAluOperation, getLsbD_toHalf, BitVec.getLsbD_append, -Nat.reduceAdd] <;>
      simp

theorem classify_wordHiRegisterOperationsBranchExchange (op : HiOp) (h1 h2 : Bool) (rs rd : RegField) :
    classify (wordHiRegisterOperationsBranchExchange op h1 h2 rs rd) = some .hiRegisterOperationsBranchExchange := by
  rw [classify_of_high (0b010001#6 ++ op.code) rfl]
  · generalize op.code = o
    revert o
    decide
  · intro i hi
    interval_cases i <;>
      simp only [wordHiRegisterOperationsBranchExchange, getLsbD_toHalf, BitVec.getLsbD_append, -Nat.reduceAdd] <;>
      simp

theorem classify_wordPcRelativeLoad (rd : RegField) (word8 : BitVec 8) :
    classify (wordPcRelativeLoad rd word8) = some .pcRelativeLoad := by
  rw [classify_of_high (0b01001#5 ++ rd) rfl]
  · revert rd
    decide
  · intro i hi
    interval_cases i <;>
      simp only [wordPcRelativeLoad, getLsbD_toHalf, BitVec.getLsbD_append, -Nat.reduceAdd] <;>
      simp

theorem classify_wordLoadStoreWithRegisterOffset (l b : Bool) (ro rb rd : RegField) :
    classify (wordLoadStoreWithRegisterOffset l b ro rb rd) = some .loadStoreWithRegisterOffset := by
  rw [classify_of_high (0b0101#4 ++ bit l ++ bit b ++ 0b0#1 ++ ro.extractLsb' 2 1) rfl]
  · generalize ro.extractLsb' 2 1 = o
    revert l b o
    decide
  · intro i hi
    interval_cases i <;>
      simp only [wordLoadStoreWithRegisterOffset, getLsbD_toHalf, BitVec.getLsbD_append, -Nat.reduceAdd] <;>
      simp

theorem classify_wordLoadStoreSignExtendedByteHalfword (h s : Bool) (ro rb rd : RegField) :
    classify (wordLoadStoreSignExtendedByteHalfword h s ro rb rd) = some .loadStoreSignExtendedByteHalfword := by
  rw [classify_of_high (0b0101#4 ++ bit h ++ bit s ++ 0b1#1 ++ ro.extractLsb' 2 1) rfl]
  · generalize ro.extractLsb' 2 1 = o
    revert h s o
    decide
  · intro i hi
    interval_cases i <;>
      simp only [wordLoadStoreSignExtendedByteHalfword, getLsbD_toHalf, BitVec.getLsbD_append, -Nat.reduceAdd] <;>
      simp

theorem classify_wordLoadStoreWithImmediateOffset (b l : Bool) (offset5 : BitVec 5) (rb rd : RegField) :
    classify (wordLoadStoreWithImmediateOffset b l offset5 rb rd) = some .loadStoreWithImmediateOffset := by
  rw [classify_of_high (0b011#3 ++ bit b ++ bit l ++ offset5.extractLsb' 2 3) rfl]
  · generalize offset5.extractLsb' 2 3 = o
    revert b l o
    decide
  · intro i hi
    interval_cases i <;>
      simp only [wordLoadStoreWithImmediateOffset, getLsbD_toHalf, BitVec.getLsbD_append, -Nat.reduceAdd] <;>
      simp

theorem classify_wordLoadStoreHalfword (l : Bool) (offset5 : BitVec 5) (rb rd : RegField) :
    classify (wordLoadStoreHalfword l offset5 rb rd) = some .loadStoreHalfword := by
  rw [classify_of_high (0b1000#4 ++ bit l ++ offset5.extractLsb' 2 3) rfl]
  · generalize offset5.extractLsb' 2 3 = o
    revert l o
    decide
  · intro i hi
    interval_cases i <;>
      simp only [wordLoadStoreHalfword, getLsbD_toHalf, BitVec.getLsbD_append, -Nat.reduceAdd] <;>
      simp

theorem classify_wordSpRelativeLoadStore (l : Bool) (rd : RegField) (word8 : BitVec 8) :
    classify (wordSpRelativeLoadStore l rd word8) = some .spRelativeLoadStore := by
  rw [classify_of_high (0b1001#4 ++ bit l ++ rd) rfl]
  · revert l rd
    decide
  · intro i hi
    interval_cases i <;>
      simp only [wordSpRelativeLoadStore, getLsbD_toHalf, BitVec.getLsbD_append, -Nat.reduceAdd] <;>
      simp

theorem classify_wordLoadAddress (sp : Bool) (rd : RegField) (word8 : BitVec 8) :
    classify (wordLoadAddress sp rd word8) = some .loadAddress := by
  rw [classify_of_high (0b1010#4 ++ bit sp ++ rd) rfl]
  · revert sp rd
    decide
  · intro i hi
    interval_cases i <;>
      simp only [wordLoadAddress, getLsbD_toHalf, BitVec.getLsbD_append, -Nat.reduceAdd] <;>
      simp

theorem classify_wordAddOffsetToStackPointer (x : Bool) (y : BitVec 2) (s : Bool) (sword7 : BitVec 7) :
    classify (wordAddOffsetToStackPointer x y s sword7) = some .addOffsetToStackPointer := by
  rw [classify_of_high (0b1011#4 ++ bit x ++ 0b0#1 ++ y) rfl]
  · revert x y
    decide
  · intro i hi
    interval_cases i <;>
      simp only [wordAddOffsetToStackPointer, getLsbD_toHalf, BitVec.getLsbD_append, -Nat.reduceAdd] <;>
      simp

theorem classify_wordPushPopRegisters (l x r : Bool) (rlist : BitVec 8) :
    classify (wordPushPopRegisters l x r rlist) = some .pushPopRegisters := by
  rw [classify_of_high (0b1011#4 ++ bit l ++ 0b1#1 ++ bit x ++ bit r) rfl]
  · revert l x r
    decide
  · intro i hi
    interval_cases i <;>
      simp only [wordPushPopRegisters, getLsbD_toHalf, BitVec.getLsbD_append, -Nat.reduceAdd] <;>
      simp

theorem classify_wordMultipleLoadStore (l : Bool) (rb : RegField) (rlist : BitVec 8) :
    classify (wordMultipleLoadStore l rb rlist) = some .multipleLoadStore := by
  rw [classify_of_high (0b1100#4 ++ bit l ++ rb) rfl]
  · revert l rb
    decide
  · intro i hi
    interval_cases i <;>
      simp only [wordMultipleLoadStore, getLsbD_toHalf, BitVec.getLsbD_append, -Nat.reduceAdd] <;>
      simp

theorem classify_wordConditionalBranch {cond : BitVec 4} (h : cond ≠ 0b1111#4) (soffset8 : BitVec 8) :
    classify (wordConditionalBranch cond soffset8) = some .conditionalBranch := by
  rw [classify_of_high (0b1101#4 ++ cond) rfl]
  · revert cond
    decide
  · intro i hi
    interval_cases i <;>
      simp only [wordConditionalBranch, getLsbD_toHalf, BitVec.getLsbD_append, -Nat.reduceAdd] <;>
      simp

theorem classify_wordSoftwareInterrupt (value8 : BitVec 8) :
    classify (wordSoftwareInterrupt value8) = some .softwareInterrupt := by
  rw [classify_of_high (0b11011111#8) rfl]
  · rfl
  · intro i hi
    interval_cases i <;>
      simp only [wordSoftwareInterrupt, getLsbD_toHalf, BitVec.getLsbD_append, -Nat.reduceAdd] <;>
      simp

theorem classify_wordUnconditionalBranch (x : Bool) (offset11 : BitVec 11) :
    classify (wordUnconditionalBranch x offset11) = some .unconditionalBranch := by
  rw [classify_of_high (0b1110#4 ++ bit x ++ offset11.extractLsb' 8 3) rfl]
  · generalize offset11.extractLsb' 8 3 = o
    revert x o
    decide
  · intro i hi
    interval_cases i <;>
      simp only [wordUnconditionalBranch, getLsbD_toHalf, BitVec.getLsbD_append, -Nat.reduceAdd] <;>
      simp

theorem classify_wordLongBranchWithLink (h : Bool) (offset : BitVec 11) :
    classify (wordLongBranchWithLink h offset) = some .longBranchWithLink := by
  rw [classify_of_high (0b1111#4 ++ bit h ++ offset.extractLsb' 8 3) rfl]
  · generalize offset.extractLsb' 8 3 = o
    revert h o
    decide
  · intro i hi
    interval_cases i <;>
      simp only [wordLongBranchWithLink, getLsbD_toHalf, BitVec.getLsbD_append, -Nat.reduceAdd] <;>
      simp

end Sys2Proof
end

