-- ==== Sys2Proof/Laws/Flags.lean ====
section
/-! SUPPORT. The laws of the codes and of the status word's fields: each update bit by bit. -/

namespace Sys2Proof

@[simp] theorem ProcessorMode.ofCode_code (m : ProcessorMode) : ProcessorMode.ofCode m.code = some m := by
  cases m <;> decide

theorem ProcessorMode.ofCode_eq_some {b : ModeBits} {m : ProcessorMode} :
    ProcessorMode.ofCode b = some m ↔ b = m.code := by
  constructor
  · revert b m
    decide
  · rintro rfl
    simp

theorem ProcessorMode.ofCode_eq_none {b : ModeBits} :
    ProcessorMode.ofCode b = none ↔ ∀ m : ProcessorMode, b ≠ m.code := by
  constructor
  · rintro h m rfl
    simp at h
  · intro h
    cases hb : ProcessorMode.ofCode b with
    | none => rfl
    | some m => exact absurd (ProcessorMode.ofCode_eq_some.mp hb) (h m)

@[simp] theorem StatusBit.ofPosition_position (b : StatusBit) :
    StatusBit.ofPosition (BitVec.ofNat 5 b.position) = some b := by
  cases b <;> decide

theorem StatusBit.ofPosition_eq_some {p : BitVec 5} {b : StatusBit} :
    StatusBit.ofPosition p = some b ↔ p = BitVec.ofNat 5 b.position := by
  constructor
  · revert p b
    decide
  · rintro rfl
    simp

theorem StatusBit.position_range (b : StatusBit) : 5 ≤ b.position ∧ b.position < 32 := by
  cases b <;> decide

theorem StatusBit.position_inj {a b : StatusBit} : a.position = b.position ↔ a = b := by
  cases a <;> cases b <;> decide

end Sys2Proof

namespace Sys2Proof.Machine

/-- Replacing the mode writes bits 4:0 and keeps every bit from 5 up. -/
theorem getLsbD_withMode (c : Word) (t : ProcessorMode) (n : Nat) :
    (withMode c t).getLsbD n = if n < 5 then t.code.getLsbD n else c.getLsbD n := by
  unfold withMode
  rw [BitVec.getLsbD_append]
  split
  · rfl
  · next h =>
    rw [BitVec.getLsbD_extractLsb']
    by_cases hn : n < 32
    · simp [show n - 5 < 27 by omega, show 5 + (n - 5) = n by omega]
    · simp [show ¬ n - 5 < 27 by omega, BitVec.getLsbD_of_ge c n (by omega)]

/-- The mode field, bit by bit. -/
theorem getLsbD_modeField (c : Word) (n : Nat) :
    (modeField c).getLsbD n = (decide (n < 5) && c.getLsbD n) := by
  simp [modeField, BitVec.getLsbD_extractLsb']

/-- Two status words that agree on bits 4:0 have the same mode field. -/
theorem modeField_congr {c d : Word} (h : ∀ n, n < 5 → c.getLsbD n = d.getLsbD n) :
    modeField c = modeField d :=
  BitVec.eq_of_getLsbD_eq fun n hn => by rw [getLsbD_modeField, getLsbD_modeField, h n hn]

/-- The mode field of a status word whose mode was replaced. -/
@[simp] theorem modeField_withMode (c : Word) (t : ProcessorMode) : modeField (withMode c t) = t.code :=
  BitVec.eq_of_getLsbD_eq fun n hn => by
    rw [getLsbD_modeField, getLsbD_withMode, if_pos hn, decide_eq_true hn, Bool.true_and]

/-- A setter's word, bit by bit. -/
theorem getLsbD_withStatusBit (c : Word) (b : StatusBit) (v : Bool) (n : Nat) :
    (withStatusBit c b v).getLsbD n = if n = b.position then v else c.getLsbD n := by
  have hp := b.position_range
  by_cases hn : n < 32
  · unfold withStatusBit
    by_cases h : n = b.position
    · subst h
      simp [hn]
    · by_cases hlt : n < b.position
      · simp [hn, h, hlt]
      · simp [hn, h, show ¬ n - b.position = 0 by omega]
  · rw [BitVec.getLsbD_of_ge _ _ (by omega), if_neg (by omega), BitVec.getLsbD_of_ge _ _ (by omega)]

@[simp] theorem statusBit_withStatusBit (c : Word) (b : StatusBit) (v : Bool) :
    statusBit (withStatusBit c b v) b = v := by
  simp [statusBit, getLsbD_withStatusBit]

/-- A setter keeps the mode field. -/
@[simp] theorem modeField_withStatusBit (c : Word) (b : StatusBit) (v : Bool) :
    modeField (withStatusBit c b v) = modeField c :=
  modeField_congr fun n hn => by
    have := b.position_range
    rw [getLsbD_withStatusBit, if_neg (by omega)]

end Sys2Proof.Machine
end

