-- ==== Sys2Proof/Laws/Decode.lean ====
section
/-! SUPPORT. The laws of the decoder: what each operand check accepts, which command words its accepted
fields make up, and the fixed bits of a classified word. -/

namespace Sys2Proof

/-- What a decoding that succeeds in two stages did. -/
theorem bind_eq_ok {ε α β : Type} {x : Except ε α} {f : α → Except ε β} {b : β}
    (h : (x >>= f) = .ok b) : ∃ a, x = .ok a ∧ f a = .ok b := by
  cases x with
  | error e => cases h
  | ok a => exact ⟨a, rfl, h⟩

/-! ## Operand checks (R74) -/

theorem fieldA_ok {cw : CommandWord} {used : Nat} {x : BitVec used} (h : fieldA cw used = .ok x) :
    cw.extractLsb' 0 8 >>> used = 0#8 ∧ x = cw.extractLsb' 0 used := by
  unfold fieldA at h
  split at h
  · next h1 => exact ⟨h1, by injection h with h; exact h.symm⟩
  · cases h

theorem fieldA_error {cw : CommandWord} {used : Nat} (h : 2 ^ used ≤ cw.toNat % 256) :
    fieldA cw used = .error (.unusedFieldBits cw) := by
  unfold fieldA
  rw [if_neg]
  intro e
  have := congrArg BitVec.toNat e
  simp [BitVec.extractLsb'_toNat, Nat.shiftRight_eq_div_pow] at this
  have := Nat.two_pow_pos used
  omega

theorem noData_ok {cw : CommandWord} {d : DataOperand} {x : Unit} (h : noData cw d = .ok x) : d = .none := by
  cases d <;> simp [noData] at h ⊢

theorem wordData_ok {cw : CommandWord} {d : DataOperand} {x : Word} (h : wordData cw d = .ok x) :
    d = .word x := by
  cases d <;> simp [wordData] at h ⊢
  exact h

theorem wordsData_ok {cw : CommandWord} {d : DataOperand} {x : List Word} (h : wordsData cw d = .ok x) :
    d = .words x := by
  cases d <;> simp [wordsData] at h ⊢
  exact h

theorem halfData_ok {cw : CommandWord} {d : DataOperand} {x : Half} (h : halfData cw d = .ok x) :
    d = .half x := by
  cases d <;> simp [halfData] at h ⊢
  exact h

theorem modeOperand_ok {m : ModeBits} {t : ProcessorMode} (h : modeOperand m = .ok t) : m = t.code := by
  unfold modeOperand at h
  split at h
  · next hm => cases h; exact ProcessorMode.ofCode_eq_some.mp hm
  · cases h

theorem flagOperand_ok {p : BitVec 5} {b : StatusBit} (h : flagOperand p = .ok b) :
    p = BitVec.ofNat 5 b.position := by
  unfold flagOperand at h
  split at h
  · next hm => cases h; exact StatusBit.ofPosition_eq_some.mp hm
  · cases h

/-! ## Command words (R73) -/

theorem operationCode_toNat (cw : CommandWord) : (operationCode cw).toNat = cw.toNat / 256 := by
  simp [operationCode, BitVec.extractLsb'_toNat, Nat.shiftRight_eq_div_pow]
  have := cw.isLt
  omega

/-- A command word whose field A is all unused. -/
theorem commandWord_of_field0 {cw : CommandWord} {op : BitVec 4} (ho : operationCode cw = op)
    (h : cw.extractLsb' 0 8 >>> 0 = 0#8) : op ++ 0#8 = cw := by
  subst ho
  have h0 : cw.extractLsb' 0 8 = 0#8 := by simpa using h
  apply BitVec.eq_of_getLsbD_eq
  intro i hi
  rw [← h0]
  interval_cases i <;> simp only [operationCode, BitVec.getLsbD_append, -Nat.reduceAdd] <;> simp

/-- A command word whose field A uses five bits. -/
theorem commandWord_of_field5 {cw : CommandWord} {op : BitVec 4} (ho : operationCode cw = op)
    (h : cw.extractLsb' 0 8 >>> 5 = 0#8) : commandWord op (cw.extractLsb' 0 5) = cw := by
  subst ho
  have high : ∀ a : BitVec 8, a >>> 5 = 0#8 →
      a.getLsbD 7 = false ∧ a.getLsbD 6 = false ∧ a.getLsbD 5 = false := by decide
  obtain ⟨h7, h6, h5⟩ := high _ h
  simp at h7 h6 h5
  apply BitVec.eq_of_getLsbD_eq
  intro i hi
  interval_cases i <;>
    simp only [commandWord, toCommand, operationCode, BitVec.getLsbD_cast, BitVec.getLsbD_append,
      -Nat.reduceAdd] <;>
    simp [h7, h6, h5]

/-- A command word whose field A uses six bits: a value bit and five bits. -/
theorem commandWord_of_field6 {cw : CommandWord} {op : BitVec 4} (ho : operationCode cw = op)
    (h : cw.extractLsb' 0 8 >>> 6 = 0#8) :
    toCommand (op ++ 0b00#2 ++ bit ((cw.extractLsb' 0 6).getLsbD 5) ++
      (cw.extractLsb' 0 6).extractLsb' 0 5) = cw := by
  subst ho
  have high : ∀ a : BitVec 8, a >>> 6 = 0#8 → a.getLsbD 7 = false ∧ a.getLsbD 6 = false := by decide
  obtain ⟨h7, h6⟩ := high _ h
  simp at h7 h6
  apply BitVec.eq_of_getLsbD_eq
  intro i hi
  interval_cases i <;>
    simp only [toCommand, operationCode, BitVec.getLsbD_cast, BitVec.getLsbD_append, -Nat.reduceAdd] <;>
    simp [bit, h7, h6]

theorem encode_getter (b : StatusBit) : encode b.getter = .command (getCommand b) .none ∧ b.getter.wf = true := by
  cases b <;> exact ⟨rfl, rfl⟩

theorem encode_setter (b : StatusBit) (v : Bool) :
    encode (b.setter v) = .command (setCommand b v) .none ∧ (b.setter v).wf = true := by
  cases b <;> exact ⟨rfl, rfl⟩

/-! ## The fixed bits of a format's words -/

/-- The bits of the high byte that are the same in every word of a format (R103 to R121), as
(which bits, their values). -/
def fixedBits : InstructionFormat → BitVec 8 × BitVec 8
  | .moveShiftedRegister => (0xE0#8, 0x00#8)
  | .addSubtract => (0xF8#8, 0x18#8)
  | .moveCompareAddSubtractImmediate => (0xE0#8, 0x20#8)
  | .aluOperation => (0xFC#8, 0x40#8)
  | .hiRegisterOperationsBranchExchange => (0xFC#8, 0x44#8)
  | .pcRelativeLoad => (0xF8#8, 0x48#8)
  | .loadStoreWithRegisterOffset => (0xF2#8, 0x50#8)
  | .loadStoreSignExtendedByteHalfword => (0xF2#8, 0x52#8)
  | .loadStoreWithImmediateOffset => (0xE0#8, 0x60#8)
  | .loadStoreHalfword => (0xF0#8, 0x80#8)
  | .spRelativeLoadStore => (0xF0#8, 0x90#8)
  | .loadAddress => (0xF0#8, 0xA0#8)
  | .addOffsetToStackPointer => (0xF4#8, 0xB0#8)
  | .pushPopRegisters => (0xF4#8, 0xB4#8)
  | .multipleLoadStore => (0xF0#8, 0xC0#8)
  | .conditionalBranch => (0xF0#8, 0xD0#8)
  | .softwareInterrupt => (0xFF#8, 0xDF#8)
  | .unconditionalBranch => (0xF0#8, 0xE0#8)
  | .longBranchWithLink => (0xF0#8, 0xF0#8)

set_option maxRecDepth 10000 in
/-- A word of a format has the format's fixed bits. -/
theorem fixedBits_of_classify {w : Half} {f : InstructionFormat} (h : classify w = some f) (n : Nat)
    (hn : (fixedBits f).1.getLsbD n = true) : w.getLsbD (8 + n) = (fixedBits f).2.getLsbD n := by
  have key : ∀ f, ∀ b : BitVec 8, classify (b ++ 0#8) = some f → b &&& (fixedBits f).1 = (fixedBits f).2 := by
    intro f
    cases f <;> decide
  rw [classify_highByte] at h
  have := congrArg (·.getLsbD n) (key _ _ h)
  simp only [BitVec.getLsbD_and, hn, Bool.and_true, getLsbD_highByte] at this
  have h8 : n < 8 := by
    by_contra hc
    rw [BitVec.getLsbD_of_ge _ _ (by omega)] at hn
    cases hn
  simpa [h8] using this

theorem ImmediateOp.code_ofCode (c : BitVec 2) : (ImmediateOp.ofCode c).code = c := by
  revert c
  decide

theorem AluOp.code_ofCode (c : BitVec 4) : (AluOp.ofCode c).code = c := by
  revert c
  decide

theorem HiOp.code_ofCode (c : BitVec 2) : (HiOp.ofCode c).code = c := by
  revert c
  decide

end Sys2Proof
end

