-- ==== Sys2Proof/Laws/State.lean ====
section
/-! SUPPORT. One lemma per field per update of State, and the laws of reading and writing one slot. -/

namespace Sys2Proof.Machine

/-! ## Fields after an update -/

@[simp] theorem State.raise_slots (s : State) (e : BlockError) : (s.raise e).slots = s.slots := rfl

@[simp] theorem State.raise_faulted (s : State) (e : BlockError) :
    (s.raise e).faulted = (s.faulted || e.fatal) := rfl

@[simp] theorem State.raise_pending (s : State) (e : BlockError) : (s.raise e).pending = s.pending := rfl

@[simp] theorem State.raise_response (s : State) (e : BlockError) :
    (s.raise e).response = .error e := rfl

@[simp] theorem State.withFetchWord_slots (s : State) (n w : Nat) :
    (s.withFetchWord n w).slots = s.slots := rfl

@[simp] theorem State.withFetchWord_faulted (s : State) (n w : Nat) :
    (s.withFetchWord n w).faulted = s.faulted := rfl

@[simp] theorem State.withFetchWord_pending (s : State) (n w : Nat) :
    (s.withFetchWord n w).pending = tableRequest n w :: s.pending := rfl

@[simp] theorem State.withFetchWord_response (s : State) (n w : Nat) :
    (s.withFetchWord n w).response = s.response := rfl

@[simp] theorem BlockError.fatal_invalidMode (b : ModeBits) :
    (BlockError.invalidMode b).fatal = true := rfl

@[simp] theorem BlockError.fatal_outOfRange (i : IndexOperand) :
    (BlockError.outOfRange i).fatal = false := rfl

@[simp] theorem BlockError.fatal_snapshotSizeMismatch (n : Nat) :
    (BlockError.snapshotSizeMismatch n).fatal = false := rfl

@[simp] theorem BlockError.fatal_unclassifiable (w : Half) :
    (BlockError.unclassifiable w).fatal = false := rfl

theorem BlockError.fatal_iff (e : BlockError) : e.fatal = true ↔ ∃ b, e = .invalidMode b := by
  cases e <;> simp

/-- Raising the fatal error, written out (R125). -/
theorem State.raise_invalidMode (s : State) (b : ModeBits) :
    s.raise (.invalidMode b) = { s with faulted := true, response := .error (.invalidMode b) } := by
  simp [State.raise]

/-- Raising a non-fatal error, written out (R124). -/
theorem State.raise_nonfatal {s : State} (hs : s.faulted = false) {e : BlockError} (h : e.fatal = false) :
    s.raise e = { s with response := .error e } := by
  cases s
  simp_all [State.raise]

/-! ## One slot -/

theorem Store.slot_eq_getElem (P : Store) (k : Slot) : P.slot k = P[k.val] := rfl

@[simp] theorem Store.slot_setSlot_same (P : Store) (k : Slot) (v : Word) :
    (P.setSlot k v).slot k = v := by
  simp [Store.slot_eq_getElem, Store.setSlot]

@[simp] theorem Store.slot_setSlot_other (P : Store) {j k : Slot} (v : Word) (h : j ≠ k) :
    (P.setSlot k v).slot j = P.slot j := by
  have : k.val ≠ j.val := fun e => h (Fin.ext e.symm)
  simp [Store.slot_eq_getElem, Store.setSlot, Vector.getElem_set_ne, this]

theorem Store.slot_setSlot (P : Store) (j k : Slot) (v : Word) :
    (P.setSlot k v).slot j = if j = k then v else P.slot j := by
  by_cases h : j = k
  · subst h; simp
  · simp [h]

/-- Two stores that agree slot by slot are equal. -/
theorem Store.ext_slot {P Q : Store} (h : ∀ k, P.slot k = Q.slot k) : P = Q := by
  apply Vector.ext
  intro i hi
  exact h ⟨i, hi⟩

theorem Store.setSlot_self (P : Store) (k : Slot) : P.setSlot k (P.slot k) = P :=
  Store.ext_slot fun j => by
    rw [Store.slot_setSlot]
    split
    · next h => rw [h]
    · rfl

theorem Store.slot_reset (k : Slot) :
    Store.reset.slot k = if k = cpsrSlot then 0x00000010#32 else 0x00000000#32 := by
  revert k
  decide

end Sys2Proof.Machine
end

