-- ==== Sys2Proof/Laws/Ops.lean ====
section
/-! SUPPORT. What each shared operation can do, said once: the index check, the mode decode, the
redirection, the logical accesses, mode entry, and the running of one operation. -/

namespace Sys2Proof.Machine

/-! ## Operands -/

theorem logicalIndex_ok {i : IndexOperand} (h : i.toNat < 17) : logicalIndex i = .ok ⟨i.toNat, h⟩ := by
  simp [logicalIndex, h]

theorem logicalIndex_error {i : IndexOperand} (h : 16 < i.toNat) :
    logicalIndex i = .error (.outOfRange i) := by
  simp [logicalIndex, show ¬ i.toNat < 17 by omega]

theorem snapshotStore_ok {w : List Word} (h : w.length = 37) : snapshotStore w = .ok ⟨w.toArray, h⟩ := by
  simp [snapshotStore, h]

theorem snapshotStore_error {w : List Word} (h : w.length ≠ 37) :
    snapshotStore w = .error (.snapshotSizeMismatch w.length) := by
  simp [snapshotStore, h]

/-- The store of a snapshot, slot by slot (R38). -/
theorem slot_snapshot {w : List Word} (h : w.length = 37) (k : Slot) :
    Store.slot ⟨w.toArray, h⟩ k = w[k.val]'(by omega) := by
  simp [Store.slot_eq_getElem]

theorem snapshotStore_toList (P : Store) : snapshotStore P.toList = .ok P := by
  have h : P.toList.length = 37 := by simp
  rw [snapshotStore_ok h]
  congr 1

/-! ## The mode -/

theorem Store.modeBits_eq {P Q : Store} (h : P.slot cpsrSlot = Q.slot cpsrSlot) :
    P.modeBits = Q.modeBits := by
  simp [Store.modeBits, Store.cpsr, h]

theorem Store.mode?_eq_some {P : Store} {m : ProcessorMode} : P.mode? = some m ↔ P.modeBits = m.code :=
  ProcessorMode.ofCode_eq_some

/-- A write to any slot but the CPSR's keeps the mode. -/
theorem Store.mode?_setSlot {P : Store} {k : Slot} (hk : k ≠ cpsrSlot) (v : Word) :
    (P.setSlot k v).mode? = P.mode? := by
  simp only [Store.mode?, Store.modeBits_eq (Store.slot_setSlot_other P v (Ne.symm hk))]

/-- A setter keeps the mode. -/
theorem Store.mode?_setStatusBit (P : Store) (b : StatusBit) (v : Bool) :
    (P.setSlot cpsrSlot (withStatusBit P.cpsr b v)).mode? = P.mode? := by
  simp [Store.mode?, Store.modeBits, Store.cpsr]

theorem Store.mode_ok {P : Store} {m : ProcessorMode} (h : P.mode? = some m) : P.mode = .ok m := by
  simp [Store.mode, h]

theorem Store.mode_error {P : Store} (h : P.mode? = none) : P.mode = .error (.invalidMode P.modeBits) := by
  simp [Store.mode, h]

/-! ## Redirection -/

@[simp] theorem physicalSlot_cpsr (m : ProcessorMode) : physicalSlot 16 m = cpsrSlot := by
  cases m <;> decide

/-- Only index 16 reaches the CPSR's slot. -/
theorem physicalSlot_ne_cpsr {i : LogicalIndex} (h : i ≠ 16) (m : ProcessorMode) :
    physicalSlot i m ≠ cpsrSlot := by
  cases m <;> revert h <;> revert i <;> decide

theorem spsrSlot_isSpsr {t : ProcessorMode} {k : Slot} (h : spsrSlot t = some k) : isSpsrSlot k = true := by
  cases t <;> simp only [spsrSlot, reduceCtorEq, Option.some.injEq] at h <;> subst h <;> decide

theorem spsrSlot_ne_cpsr {t : ProcessorMode} {k : Slot} (h : spsrSlot t = some k) : k ≠ cpsrSlot := by
  rintro rfl
  exact absurd (spsrSlot_isSpsr h) (by decide)

theorem physicalSlot_not_spsr (i : LogicalIndex) (m : ProcessorMode) :
    isSpsrSlot (physicalSlot i m) = false := by
  cases m <;> revert i <;> decide

/-! ## Logical access -/

/-- With `DECODE_ON_UNBANKED` every access decodes the mode (D3). -/
theorem Store.accessMode_eq (P : Store) (i : LogicalIndex) : P.accessMode i = P.mode := by
  simp [Store.accessMode, decodeOnUnbanked]

theorem Store.access_ok {P : Store} {i : IndexOperand} {m : ProcessorMode} (h : i.toNat < 17)
    (hm : P.mode? = some m) : P.access i = .ok (⟨i.toNat, h⟩, m) := by
  simp [Store.access, logicalIndex_ok h, Store.accessMode_eq, Store.mode_ok hm, bind, Except.bind, pure,
    Except.pure]

theorem Store.access_outOfRange (P : Store) {i : IndexOperand} (h : 16 < i.toNat) :
    P.access i = .error (.outOfRange i) := by
  simp [Store.access, logicalIndex_error h, bind, Except.bind]

theorem Store.access_invalidMode {P : Store} {i : IndexOperand} (h : i.toNat < 17)
    (hm : P.mode? = none) : P.access i = .error (.invalidMode P.modeBits) := by
  simp [Store.access, logicalIndex_ok h, Store.accessMode_eq, Store.mode_error hm, bind, Except.bind]

/-- Everything the access checks can answer (R127). -/
theorem Store.access_cases (P : Store) (i : IndexOperand) :
    (16 < i.toNat ∧ P.access i = .error (.outOfRange i)) ∨
    (∃ _ : i.toNat < 17, P.mode? = none ∧ P.access i = .error (.invalidMode P.modeBits)) ∨
    (∃ (h : i.toNat < 17) (m : ProcessorMode), P.mode? = some m ∧ P.access i = .ok (⟨i.toNat, h⟩, m)) := by
  by_cases h : i.toNat < 17
  · cases hm : P.mode? with
    | none => exact .inr (.inl ⟨h, rfl, Store.access_invalidMode h hm⟩)
    | some m => exact .inr (.inr ⟨h, m, rfl, Store.access_ok h hm⟩)
  · exact .inl ⟨by omega, P.access_outOfRange (by omega)⟩

theorem Store.readLogical_ok {P : Store} {i : IndexOperand} {m : ProcessorMode} (h : i.toNat < 17)
    (hm : P.mode? = some m) : P.readLogical i = .ok (P.slot (physicalSlot ⟨i.toNat, h⟩ m)) := by
  simp [Store.readLogical, Store.access_ok h hm, bind, Except.bind, pure, Except.pure]

theorem Store.readLogical_error {P : Store} {i : IndexOperand} {e : BlockError}
    (h : P.access i = .error e) : P.readLogical i = .error e := by
  simp [Store.readLogical, h, bind, Except.bind]

theorem Store.writeLogical_ok {P : Store} {i : IndexOperand} {m : ProcessorMode} (h : i.toNat < 17)
    (hm : P.mode? = some m) (v : Word) :
    P.writeLogical i v = .ok (P.setSlot (physicalSlot ⟨i.toNat, h⟩ m) v) := by
  simp [Store.writeLogical, Store.access_ok h hm, bind, Except.bind, pure, Except.pure]

theorem Store.writeLogical_error {P : Store} {i : IndexOperand} {e : BlockError}
    (h : P.access i = .error e) (v : Word) : P.writeLogical i v = .error e := by
  simp [Store.writeLogical, h, bind, Except.bind]

/-- READ(16) under a valid mode returns the CPSR. -/
theorem Store.readLogical_cpsr_ok {P : Store} {m : ProcessorMode} (hm : P.mode? = some m) :
    P.readLogical cpsrIndex = .ok P.cpsr := by
  rw [Store.readLogical_ok (i := cpsrIndex) (by decide) hm]
  exact congrArg (fun k => Except.ok (P.slot k)) (physicalSlot_cpsr m)

/-- READ(16) under an invalid mode raises `InvalidMode`. -/
theorem Store.readLogical_cpsr_error {P : Store} (hm : P.mode? = none) :
    P.readLogical cpsrIndex = .error (.invalidMode P.modeBits) :=
  Store.readLogical_error (Store.access_invalidMode (by decide) hm)

theorem Store.readStatus_ok {P : Store} {m : ProcessorMode} (hm : P.mode? = some m) (b : StatusBit) :
    P.readStatus b = .ok (statusBit P.cpsr b) := by
  simp [Store.readStatus, Store.readLogical_cpsr_ok hm, bind, Except.bind, pure, Except.pure]

theorem Store.readStatus_error {P : Store} (hm : P.mode? = none) (b : StatusBit) :
    P.readStatus b = .error (.invalidMode P.modeBits) := by
  simp [Store.readStatus, Store.readLogical_cpsr_error hm, bind, Except.bind]

theorem Store.writeStatus_ok {P : Store} {m : ProcessorMode} (hm : P.mode? = some m) (b : StatusBit)
    (v : Bool) : P.writeStatus b v = .ok (P.setSlot cpsrSlot (withStatusBit P.cpsr b v)) := by
  simp [Store.writeStatus, Store.readLogical_cpsr_ok hm, bind, Except.bind, pure, Except.pure]

theorem Store.writeStatus_error {P : Store} (hm : P.mode? = none) (b : StatusBit) (v : Bool) :
    P.writeStatus b v = .error (.invalidMode P.modeBits) := by
  simp [Store.writeStatus, Store.readLogical_cpsr_error hm, bind, Except.bind]

/-! ## Mode entry -/

/-- The store SETMODE leaves (R85): the CPSR in the target's SPSR, the target's code in the CPSR. -/
def Store.entered (P : Store) (t : ProcessorMode) : Store :=
  match spsrSlot t with
  | some k => (P.setSlot k P.cpsr).setSlot cpsrSlot (withMode P.cpsr t)
  | none => P.setSlot cpsrSlot (withMode P.cpsr t)

theorem Store.enterMode_ok {P : Store} {m : ProcessorMode} (hm : P.mode? = some m) (t : ProcessorMode) :
    P.enterMode t = .ok (P.entered t) := by
  unfold Store.enterMode Store.entered
  rw [Store.readLogical_cpsr_ok hm]
  cases spsrSlot t <;> rfl

theorem Store.enterMode_error {P : Store} (hm : P.mode? = none) (t : ProcessorMode) :
    P.enterMode t = .error (.invalidMode P.modeBits) := by
  simp [Store.enterMode, Store.readLogical_cpsr_error hm, bind, Except.bind]

/-- The store after mode entry, slot by slot. -/
theorem Store.slot_entered (P : Store) (t : ProcessorMode) (k : Slot) :
    (P.entered t).slot k =
      if k = cpsrSlot then withMode P.cpsr t
      else if spsrSlot t = some k then P.cpsr else P.slot k := by
  unfold Store.entered
  cases h : spsrSlot t with
  | none => simp [Store.slot_setSlot]
  | some j => simp [Store.slot_setSlot, eq_comm]

@[simp] theorem Store.cpsr_entered (P : Store) (t : ProcessorMode) :
    (P.entered t).cpsr = withMode P.cpsr t := by
  simp [Store.cpsr, Store.slot_entered]

@[simp] theorem Store.mode?_entered (P : Store) (t : ProcessorMode) : (P.entered t).mode? = some t := by
  simp [Store.mode?, Store.modeBits]

/-! ## Running one operation -/

theorem operate_ok {s : State} {body : Store → Except BlockError (Store × Response)} {P : Store}
    {r : Response} (hs : s.faulted = false) (h : body s.slots = .ok (P, r)) :
    operate s body = .next { s with slots := P, response := r } := by
  simp [operate, hs, h]

theorem operate_error {s : State} {body : Store → Except BlockError (Store × Response)} {e : BlockError}
    (hs : s.faulted = false) (h : body s.slots = .error e) : operate s body = .next (s.raise e) := by
  simp [operate, hs, h]

theorem operate_faulted {s : State} (body : Store → Except BlockError (Store × Response))
    (hs : s.faulted = true) : operate s body = .fault .instanceFaulted := by
  simp [operate, hs]

/-- Everything a run of an operation that ends in a next state can be. -/
theorem operate_next {s t : State} {body : Store → Except BlockError (Store × Response)}
    (h : operate s body = .next t) :
    s.faulted = false ∧
    ((∃ P r, body s.slots = .ok (P, r) ∧ t = { s with slots := P, response := r }) ∨
     (∃ e, body s.slots = .error e ∧ t = s.raise e)) := by
  unfold operate at h
  split at h
  · cases h
  · next hs =>
    refine ⟨by simpa using hs, ?_⟩
    split at h
    · next P r hb => exact .inl ⟨P, r, hb, by cases h; rfl⟩
    · next e hb => exact .inr ⟨e, hb, by cases h; rfl⟩

/-- An operation is never refused. -/
theorem operate_not_refused (s : State) (body : Store → Except BlockError (Store × Response))
    (r : Refusal) : operate s body ≠ .refused r := by
  unfold operate
  split
  · nofun
  · split <;> nofun

theorem query_ok {s : State} {body : Store → Except BlockError Response} {r : Response}
    (hs : s.faulted = false) (h : body s.slots = .ok r) : query s body = .next { s with response := r } := by
  unfold query
  rw [operate_ok (P := s.slots) (r := r) hs (by simp [h, bind, Except.bind, pure, Except.pure])]

theorem query_error {s : State} {body : Store → Except BlockError Response} {e : BlockError}
    (hs : s.faulted = false) (h : body s.slots = .error e) : query s body = .next (s.raise e) :=
  operate_error hs (by simp [h, bind, Except.bind])

/-- Everything a read-type operation that ends in a next state can be: the store is untouched. -/
theorem query_next {s t : State} {body : Store → Except BlockError Response} (h : query s body = .next t) :
    s.faulted = false ∧
    ((∃ r, body s.slots = .ok r ∧ t = { s with response := r }) ∨
     (∃ e, body s.slots = .error e ∧ t = s.raise e)) := by
  obtain ⟨hs, ⟨P, r, hb, rfl⟩ | ⟨e, hb, rfl⟩⟩ := operate_next h
  · cases hbody : body s.slots with
    | error e => simp [hbody, bind, Except.bind] at hb
    | ok r' =>
      simp only [hbody, bind, Except.bind, pure, Except.pure, Except.ok.injEq, Prod.mk.injEq] at hb
      obtain ⟨rfl, rfl⟩ := hb
      exact ⟨hs, .inl ⟨r', rfl, rfl⟩⟩
  · cases hbody : body s.slots with
    | error e' =>
      simp only [hbody, bind, Except.bind, Except.error.injEq] at hb
      subst hb
      exact ⟨hs, .inr ⟨e', rfl, rfl⟩⟩
    | ok r' => simp [hbody, bind, Except.bind, pure, Except.pure] at hb

theorem update_ok {s : State} {body : Store → Except BlockError Store} {P : Store}
    (hs : s.faulted = false) (h : body s.slots = .ok P) :
    update s body = .next { s with slots := P, response := .none } :=
  operate_ok hs (by simp [h, bind, Except.bind, pure, Except.pure])

theorem update_error {s : State} {body : Store → Except BlockError Store} {e : BlockError}
    (hs : s.faulted = false) (h : body s.slots = .error e) : update s body = .next (s.raise e) :=
  operate_error hs (by simp [h, bind, Except.bind])

/-- Everything a write-type operation that ends in a next state can be. -/
theorem update_next {s t : State} {body : Store → Except BlockError Store} (h : update s body = .next t) :
    s.faulted = false ∧
    ((∃ P, body s.slots = .ok P ∧ t = { s with slots := P, response := .none }) ∨
     (∃ e, body s.slots = .error e ∧ t = s.raise e)) := by
  obtain ⟨hs, ⟨P, r, hb, rfl⟩ | ⟨e, hb, rfl⟩⟩ := operate_next h
  · cases hbody : body s.slots with
    | error e => simp [hbody, bind, Except.bind] at hb
    | ok P' =>
      simp only [hbody, bind, Except.bind, pure, Except.pure, Except.ok.injEq, Prod.mk.injEq] at hb
      obtain ⟨rfl, rfl⟩ := hb
      exact ⟨hs, .inl ⟨P', rfl, rfl⟩⟩
  · cases hbody : body s.slots with
    | error e' =>
      simp only [hbody, bind, Except.bind, Except.error.injEq] at hb
      subst hb
      exact ⟨hs, .inr ⟨e', rfl, rfl⟩⟩
    | ok P' => simp [hbody, bind, Except.bind, pure, Except.pure] at hb

end Sys2Proof.Machine
end

