-- ==== Sys2Proof/Laws/Exec.lean ====
section
/-! SUPPORT. What each meaning does, and the inversion of `exec`: everything an instruction that answers a
next state can have done. -/

namespace Sys2Proof.Machine

/-! ## Each meaning on a live instance -/

/-- READ, WRITE and LABEL raise whatever the access checks raise (R127). -/
theorem exec_access_error {s : State} (hs : s.faulted = false) {i : IndexOperand} {e : BlockError}
    (ha : s.slots.access i = .error e) :
    exec (.read i) s = .next (s.raise e) ∧ (∀ v, exec (.write i v) s = .next (s.raise e)) ∧
    exec (.label i) s = .next (s.raise e) :=
  ⟨show execRead i s = _ from query_error hs (by simp [Store.readLogical_error ha, bind, Except.bind]),
    fun v => show execWrite i v s = _ from update_error hs (Store.writeLogical_error ha v),
    show execLabel i s = _ from query_error hs (by simp [ha, bind, Except.bind])⟩

/-- While `Faulted` is 1 every instruction but RESET stops (R31). -/
theorem exec_faulted {s : State} (hs : s.faulted = true) {i : Instr} (hi : i ≠ .reset) :
    exec i s = .fault .instanceFaulted := by
  obtain ⟨P, f, q, r⟩ := s
  obtain rfl : f = true := hs
  cases i <;> first | exact absurd rfl hi | rfl

/-- The arm of a getter is the getter of its bit. -/
theorem exec_getter (b : StatusBit) (s : State) : exec b.getter s = getStatus b s := by
  cases b <;> rfl

/-- The arm of a setter is the setter of its bit. -/
theorem exec_setter (b : StatusBit) (v : Bool) (s : State) : exec (b.setter v) s = setStatus b v s := by
  cases b <;> rfl

/-- The mode and status operations raise `InvalidMode` under an invalid mode field (R126). -/
theorem exec_invalidMode {s : State} (hs : s.faulted = false) (hm : s.slots.mode? = none) :
    exec .getMode s = .next (s.raise (.invalidMode s.slots.modeBits)) ∧
    (∀ u, exec (.setMode u) s = .next (s.raise (.invalidMode s.slots.modeBits))) ∧
    (∀ b : StatusBit, exec b.getter s = .next (s.raise (.invalidMode s.slots.modeBits))) ∧
    (∀ (b : StatusBit) v, exec (b.setter v) s = .next (s.raise (.invalidMode s.slots.modeBits))) :=
  ⟨show execGetMode s = _ from query_error hs (by simp [Store.mode_error hm, bind, Except.bind]),
    fun u => show execSetMode u s = _ from update_error hs (Store.enterMode_error hm u),
    fun b => (exec_getter b s).trans
      (query_error hs (by simp [Store.readStatus_error hm, bind, Except.bind])),
    fun b v => (exec_setter b v s).trans (update_error hs (Store.writeStatus_error hm b v))⟩

theorem exec_read_ok {s : State} (hs : s.faulted = false) {i : IndexOperand} {m : ProcessorMode}
    (h : i.toNat < 17) (hm : s.slots.mode? = some m) :
    exec (.read i) s = .next { s with response := .word (s.slots.slot (physicalSlot ⟨i.toNat, h⟩ m)) } :=
  show execRead i s = _ from query_ok hs (by simp [Store.readLogical_ok h hm, bind, Except.bind, pure, Except.pure])

theorem exec_write_ok {s : State} (hs : s.faulted = false) {i : IndexOperand} {m : ProcessorMode}
    (h : i.toNat < 17) (hm : s.slots.mode? = some m) (v : Word) :
    exec (.write i v) s =
      .next { s with slots := s.slots.setSlot (physicalSlot ⟨i.toNat, h⟩ m) v, response := .none } :=
  show execWrite i v s = _ from update_ok hs (Store.writeLogical_ok h hm v)

theorem exec_exportStore_ok {s : State} (hs : s.faulted = false) :
    exec .exportStore s = .next { s with response := .snapshot s.slots } :=
  show execExportStore s = _ from query_ok hs rfl

theorem exec_importStore_ok {s : State} (hs : s.faulted = false) {w : List Word} (h : w.length = 37) :
    exec (.importStore w) s = .next { s with slots := ⟨w.toArray, h⟩, response := .none } :=
  show execImportStore w s = _ from update_ok hs (snapshotStore_ok h)

theorem exec_importStore_error {s : State} (hs : s.faulted = false) {w : List Word} (h : w.length ≠ 37) :
    exec (.importStore w) s = .next (s.raise (.snapshotSizeMismatch w.length)) :=
  show execImportStore w s = _ from update_error hs (snapshotStore_error h)

theorem exec_label_ok {s : State} (hs : s.faulted = false) {i : IndexOperand} {m : ProcessorMode}
    (h : i.toNat < 17) (hm : s.slots.mode? = some m) :
    exec (.label i) s = .next { s with response := .label (registerName ⟨i.toNat, h⟩ m) } :=
  show execLabel i s = _ from query_ok hs (by simp [Store.access_ok h hm, bind, Except.bind, pure, Except.pure])

theorem exec_getMode_ok {s : State} (hs : s.faulted = false) {m : ProcessorMode}
    (hm : s.slots.mode? = some m) : exec .getMode s = .next { s with response := .mode m } :=
  show execGetMode s = _ from query_ok hs (by simp [Store.mode_ok hm, bind, Except.bind, pure, Except.pure])

theorem exec_setMode_ok {s : State} (hs : s.faulted = false) {m : ProcessorMode}
    (hm : s.slots.mode? = some m) (u : ProcessorMode) :
    exec (.setMode u) s = .next { s with slots := s.slots.entered u, response := .none } :=
  show execSetMode u s = _ from update_ok hs (Store.enterMode_ok hm u)

theorem exec_getter_ok {s : State} (hs : s.faulted = false) {m : ProcessorMode}
    (hm : s.slots.mode? = some m) (b : StatusBit) :
    exec b.getter s = .next { s with response := .bit (statusBit s.slots.cpsr b) } := by
  rw [exec_getter]
  exact query_ok hs (by simp [Store.readStatus_ok hm, bind, Except.bind, pure, Except.pure])

theorem exec_setter_ok {s : State} (hs : s.faulted = false) {m : ProcessorMode}
    (hm : s.slots.mode? = some m) (b : StatusBit) (v : Bool) :
    exec (b.setter v) s =
      .next { s with
        slots := s.slots.setSlot cpsrSlot (withStatusBit s.slots.cpsr b v), response := .none } := by
  rw [exec_setter]
  exact update_ok hs (Store.writeStatus_ok hm b v)

theorem classifyWord_ok {s : State} (hs : s.faulted = false) {w : Half} {f : InstructionFormat}
    (h : classify w = some f) : classifyWord w s = .next { s with response := .format f } :=
  query_ok hs (by simp [h])

/-! ## The inversion of a classification -/

theorem classifyWord_next {s t : State} {w : Half} (h : classifyWord w s = .next t) :
    s.faulted = false ∧ ∃ f, classify w = some f ∧ t = { s with response := .format f } := by
  obtain ⟨hs, _⟩ := query_next h
  obtain ⟨f, hf⟩ := Option.isSome_iff_exists.mp (classify_isSome w)
  rw [classifyWord_ok hs hf] at h
  exact ⟨hs, f, hf, by cases h; rfl⟩

/-- A THUMB instruction's arm classifies the word that is its encoding. -/
theorem exec_of_encode_thumb {i : Instr} {w : Half} (h : encode i = .thumb w) (s : State) :
    exec i s = classifyWord w s := by
  cases i <;> simp only [encode, Request.thumb.injEq, reduceCtorEq] at h <;> subst h <;> rfl

/-! ## The inversion of `exec` -/

/-- A setter is none of the other writing instructions. -/
theorem setter_ne (b : StatusBit) (v : Bool) :
    (∀ k w, b.setter v ≠ .write k w) ∧ (∀ u, b.setter v ≠ .setMode u) ∧ b.setter v ≠ .reset ∧
    ∀ w, b.setter v ≠ .importStore w := by
  cases b <;> simp [StatusBit.setter]


/-- What an error raised by an instruction can be: an `InvalidMode` records the mode bits that stand in
the CPSR, and they are no mode code (R16, R123). -/
def BlockError.IsOf (e : BlockError) (P : Store) : Prop :=
  ∀ b, e = .invalidMode b → b = P.modeBits ∧ P.mode? = none

theorem Store.access_isOf {P : Store} {i : IndexOperand} {e : BlockError} (h : P.access i = .error e) :
    e.IsOf P := by
  rintro b rfl
  obtain ⟨_, ha⟩ | ⟨_, hm, ha⟩ | ⟨_, _, _, ha⟩ := P.access_cases i <;> rw [ha] at h <;>
    simp only [Except.error.injEq, BlockError.invalidMode.injEq, reduceCtorEq] at h
  exact ⟨h.symm, hm⟩

/-- Everything an instruction that answers a next state can have done: RESET; an error, with nothing
written; an answer, with nothing written; or one of the four kinds of write. -/
theorem exec_next {i : Instr} {s t : State} (h : exec i s = .next t) :
    (i = .reset ∧ t = { s with slots := Store.reset, faulted := false, response := .none }) ∨
    (s.faulted = false ∧
      ((∃ e, e.IsOf s.slots ∧ t = s.raise e) ∨
       (∃ r, (∀ e, r ≠ .error e) ∧ t = { s with response := r }) ∨
       (∃ k v m, ∃ hk : k.toNat < 17, i = .write k v ∧ s.slots.mode? = some m ∧
          t = { s with slots := s.slots.setSlot (physicalSlot ⟨k.toNat, hk⟩ m) v, response := .none }) ∨
       (∃ w, ∃ hw : w.length = 37, i = .importStore w ∧
          t = { s with slots := ⟨w.toArray, hw⟩, response := .none }) ∨
       (∃ u m, i = .setMode u ∧ s.slots.mode? = some m ∧
          t = { s with slots := s.slots.entered u, response := .none }) ∨
       (∃ b v m, i = StatusBit.setter b v ∧ s.slots.mode? = some m ∧
          t = { s with slots := s.slots.setSlot cpsrSlot (withStatusBit s.slots.cpsr b v),
                       response := .none }))) := by
  -- the kinds of instruction that share a meaning
  have thumb : ∀ w, exec i s = classifyWord w s → s.faulted = false ∧
      ((∃ e, e.IsOf s.slots ∧ t = s.raise e) ∨
       ∃ r, (∀ e, r ≠ .error e) ∧ t = { s with response := r }) := fun w hw => by
    obtain ⟨hs, f, _, rfl⟩ := classifyWord_next (hw ▸ h)
    exact ⟨hs, .inr ⟨_, by simp, rfl⟩⟩
  have invalid : s.slots.mode? = none → exec i s = .next (s.raise (.invalidMode s.slots.modeBits)) →
      ∃ e, BlockError.IsOf e s.slots ∧ t = s.raise e := fun hm he => by
    rw [he] at h
    cases h
    exact ⟨_, fun b hb => ⟨by simpa using hb.symm, hm⟩, rfl⟩
  have access : ∀ k e, s.slots.access k = .error e → exec i s = .next (s.raise e) →
      ∃ e, BlockError.IsOf e s.slots ∧ t = s.raise e := fun k e ha he => by
    rw [he] at h
    cases h
    exact ⟨e, Store.access_isOf ha, rfl⟩
  have getter : ∀ b, i = StatusBit.getter b → s.faulted = false ∧
      ((∃ e, e.IsOf s.slots ∧ t = s.raise e) ∨
       ∃ r, (∀ e, r ≠ .error e) ∧ t = { s with response := r }) := fun b hb => by
    subst hb
    have hs := (query_next ((exec_getter b s).symm.trans h)).1
    refine ⟨hs, ?_⟩
    cases hm : s.slots.mode? with
    | none => exact .inl (invalid hm ((exec_invalidMode hs hm).2.2.1 b))
    | some m =>
      rw [exec_getter_ok hs hm] at h
      cases h
      exact .inr ⟨_, by simp, rfl⟩
  have setter : ∀ b v, i = StatusBit.setter b v → s.faulted = false ∧
      ((∃ e, e.IsOf s.slots ∧ t = s.raise e) ∨
       ∃ b v m, i = StatusBit.setter b v ∧ s.slots.mode? = some m ∧
          t = { s with slots := s.slots.setSlot cpsrSlot (withStatusBit s.slots.cpsr b v),
                       response := .none }) := fun b v hb => by
    subst hb
    have hs := (update_next ((exec_setter b v s).symm.trans h)).1
    refine ⟨hs, ?_⟩
    cases hm : s.slots.mode? with
    | none => exact .inl (invalid hm ((exec_invalidMode hs hm).2.2.2 b v))
    | some m =>
      rw [exec_setter_ok hs hm] at h
      cases h
      exact .inr ⟨b, v, m, rfl, rfl, rfl⟩
  have answers {A B C D E : Prop} (x : s.faulted = false ∧ (A ∨ B)) :
      s.faulted = false ∧ (A ∨ B ∨ C ∨ D ∨ E) := ⟨x.1, x.2.imp id .inl⟩
  have sets {A B C D E F : Prop} (x : s.faulted = false ∧ (A ∨ F)) :
      s.faulted = false ∧ (A ∨ B ∨ C ∨ D ∨ E ∨ F) :=
    ⟨x.1, x.2.imp id fun f => .inr (.inr (.inr (.inr f)))⟩
  cases i with
  | reset => cases h; exact .inl ⟨rfl, rfl⟩
  | read k =>
    have hs := (query_next (show execRead k s = .next t from h)).1
    refine .inr (answers ⟨hs, ?_⟩)
    obtain ⟨_, ha⟩ | ⟨_, _, ha⟩ | ⟨hk, m, hm, ha⟩ := s.slots.access_cases k
    · exact .inl (access k _ ha (exec_access_error hs ha).1)
    · exact .inl (access k _ ha (exec_access_error hs ha).1)
    · rw [exec_read_ok hs hk hm] at h
      cases h
      exact .inr ⟨_, by simp, rfl⟩
  | write k v =>
    have hs := (update_next (show execWrite k v s = .next t from h)).1
    refine .inr ⟨hs, ?_⟩
    obtain ⟨_, ha⟩ | ⟨_, _, ha⟩ | ⟨hk, m, hm, ha⟩ := s.slots.access_cases k
    · exact .inl (access k _ ha ((exec_access_error hs ha).2.1 v))
    · exact .inl (access k _ ha ((exec_access_error hs ha).2.1 v))
    · rw [exec_write_ok hs hk hm] at h
      cases h
      exact .inr (.inr (.inl ⟨k, v, m, hk, rfl, hm, rfl⟩))
  | exportStore =>
    have hs := (query_next (show execExportStore s = .next t from h)).1
    rw [exec_exportStore_ok hs] at h
    cases h
    exact .inr (answers ⟨hs, .inr ⟨_, by simp, rfl⟩⟩)
  | importStore w =>
    have hs := (update_next (show execImportStore w s = .next t from h)).1
    refine .inr ⟨hs, ?_⟩
    by_cases hw : w.length = 37
    · rw [exec_importStore_ok hs hw] at h
      cases h
      exact .inr (.inr (.inr (.inl ⟨w, hw, rfl, rfl⟩)))
    · rw [exec_importStore_error hs hw] at h
      cases h
      exact .inl ⟨_, fun b hb => by simp at hb, rfl⟩
  | label k =>
    have hs := (query_next (show execLabel k s = .next t from h)).1
    refine .inr (answers ⟨hs, ?_⟩)
    obtain ⟨_, ha⟩ | ⟨_, _, ha⟩ | ⟨hk, m, hm, ha⟩ := s.slots.access_cases k
    · exact .inl (access k _ ha (exec_access_error hs ha).2.2)
    · exact .inl (access k _ ha (exec_access_error hs ha).2.2)
    · rw [exec_label_ok hs hk hm] at h
      cases h
      exact .inr ⟨_, by simp, rfl⟩
  | getMode =>
    have hs := (query_next (show execGetMode s = .next t from h)).1
    refine .inr (answers ⟨hs, ?_⟩)
    cases hm : s.slots.mode? with
    | none => exact .inl (invalid hm (exec_invalidMode hs hm).1)
    | some m =>
      rw [exec_getMode_ok hs hm] at h
      cases h
      exact .inr ⟨_, by simp, rfl⟩
  | setMode u =>
    have hs := (update_next (show execSetMode u s = .next t from h)).1
    refine .inr ⟨hs, ?_⟩
    cases hm : s.slots.mode? with
    | none => exact .inl (invalid hm ((exec_invalidMode hs hm).2.1 u))
    | some m =>
      rw [exec_setMode_ok hs hm] at h
      cases h
      exact .inr (.inr (.inr (.inr (.inl ⟨u, m, rfl, rfl, rfl⟩))))
  | getT => exact .inr (answers (getter .t rfl))
  | getF => exact .inr (answers (getter .f rfl))
  | getI => exact .inr (answers (getter .i rfl))
  | getV => exact .inr (answers (getter .v rfl))
  | getC => exact .inr (answers (getter .c rfl))
  | getZ => exact .inr (answers (getter .z rfl))
  | getN => exact .inr (answers (getter .n rfl))
  | setT v => exact .inr (sets (setter .t v rfl))
  | setF v => exact .inr (sets (setter .f v rfl))
  | setI v => exact .inr (sets (setter .i v rfl))
  | setV v => exact .inr (sets (setter .v v rfl))
  | setC v => exact .inr (sets (setter .c v rfl))
  | setZ v => exact .inr (sets (setter .z v rfl))
  | setN v => exact .inr (sets (setter .n v rfl))
  | classify w => exact .inr (answers (thumb w rfl))
  | _ => exact .inr (answers (thumb _ rfl))

end Sys2Proof.Machine
end

