-- ==== Sys2Proof/Laws/PerInstr.lean ====
section
/-! SUPPORT. Facts about every instruction, one lemma per constructor. The family DecodeEncode: the
decoder reads an encoded well-formed instruction back, every operand as it was (R54 to R74). -/

namespace Sys2Proof.Laws.DecodeEncode

/-- Decoding the encoding of a well-formed instruction gives it back. -/
def Statement (i : Instr) : Prop := i.wf = true → decode (encode i) = .ok i

/-! ## Reading a field back -/

theorem ImmediateOp_ofCode_code (op : ImmediateOp) : ImmediateOp.ofCode op.code = op := by
  cases op <;> decide

theorem AluOp_ofCode_code (op : AluOp) : AluOp.ofCode op.code = op := by
  cases op <;> decide

theorem HiOp_ofCode_code (op : HiOp) : HiOp.ofCode op.code = op := by
  cases op <;> decide

theorem getLsbD_bit (b : Bool) : (bit b).getLsbD 0 = b := by
  cases b <;> rfl

/-- A field of an assembled word is the bits at its place. -/
theorem extract_of_bits {n m start : Nat} {x : BitVec n} {a : BitVec m}
    (h : ∀ i, i < m → x.getLsbD (start + i) = a.getLsbD i) : x.extractLsb' start m = a :=
  BitVec.eq_of_getLsbD_eq fun i hi => by
    rw [BitVec.getLsbD_extractLsb', decide_eq_true hi, Bool.true_and, h i hi]

/-! ## THUMB words -/

theorem moveShiftedRegister (op : BitVec 2) (offset5 : BitVec 5) (rs rd : RegField) :
    Statement (.moveShiftedRegister op offset5 rs rd) := by
  intro hwf
  have h : op ≠ 0b11#2 := by simpa [Instr.wf] using hwf
  simp only [decode, encode, decodeThumb, classify_wordMoveShiftedRegister h, Except.ok.injEq, Instr.moveShiftedRegister.injEq]
  refine ⟨?_, ?_, ?_, ?_⟩
  · exact extract_of_bits fun i hi => by
      interval_cases i <;>
        simp only [wordMoveShiftedRegister, getLsbD_toHalf, BitVec.getLsbD_append, -Nat.reduceAdd] <;> simp
  · exact extract_of_bits fun i hi => by
      interval_cases i <;>
        simp only [wordMoveShiftedRegister, getLsbD_toHalf, BitVec.getLsbD_append, -Nat.reduceAdd] <;> simp
  · exact extract_of_bits fun i hi => by
      interval_cases i <;>
        simp only [wordMoveShiftedRegister, getLsbD_toHalf, BitVec.getLsbD_append, -Nat.reduceAdd] <;> simp
  · exact extract_of_bits fun i hi => by
      interval_cases i <;>
        simp only [wordMoveShiftedRegister, getLsbD_toHalf, BitVec.getLsbD_append, -Nat.reduceAdd] <;> simp

theorem addSubtract (i p : Bool) (n : BitVec 3) (rs rd : RegField) :
    Statement (.addSubtract i p n rs rd) := by
  intro _
  simp only [decode, encode, decodeThumb, classify_wordAddSubtract, Except.ok.injEq, Instr.addSubtract.injEq]
  refine ⟨?_, ?_, ?_, ?_, ?_⟩
  · simp only [bitAt, wordAddSubtract, getLsbD_toHalf, BitVec.getLsbD_append, -Nat.reduceAdd]
    simp [bit]
  · simp only [bitAt, wordAddSubtract, getLsbD_toHalf, BitVec.getLsbD_append, -Nat.reduceAdd]
    simp [bit]
  · exact extract_of_bits fun i hi => by
      interval_cases i <;>
        simp only [wordAddSubtract, getLsbD_toHalf, BitVec.getLsbD_append, -Nat.reduceAdd] <;> simp
  · exact extract_of_bits fun i hi => by
      interval_cases i <;>
        simp only [wordAddSubtract, getLsbD_toHalf, BitVec.getLsbD_append, -Nat.reduceAdd] <;> simp
  · exact extract_of_bits fun i hi => by
      interval_cases i <;>
        simp only [wordAddSubtract, getLsbD_toHalf, BitVec.getLsbD_append, -Nat.reduceAdd] <;> simp

theorem moveCompareAddSubtractImmediate (op : ImmediateOp) (rd : RegField) (offset8 : BitVec 8) :
    Statement (.moveCompareAddSubtractImmediate op rd offset8) := by
  intro _
  simp only [decode, encode, decodeThumb, classify_wordMoveCompareAddSubtractImmediate, Except.ok.injEq, Instr.moveCompareAddSubtractImmediate.injEq]
  refine ⟨?_, ?_, ?_⟩
  · refine (congrArg ImmediateOp.ofCode (extract_of_bits (a := op.code) fun i hi => ?_)).trans
      (ImmediateOp_ofCode_code op)
    interval_cases i <;>
      simp only [wordMoveCompareAddSubtractImmediate, getLsbD_toHalf, BitVec.getLsbD_append, -Nat.reduceAdd] <;> simp
  · exact extract_of_bits fun i hi => by
      interval_cases i <;>
        simp only [wordMoveCompareAddSubtractImmediate, getLsbD_toHalf, BitVec.getLsbD_append, -Nat.reduceAdd] <;> simp
  · exact extract_of_bits fun i hi => by
      interval_cases i <;>
        simp only [wordMoveCompareAddSubtractImmediate, getLsbD_toHalf, BitVec.getLsbD_append, -Nat.reduceAdd] <;> simp

theorem aluOperation (op : AluOp) (rs rd : RegField) :
    Statement (.aluOperation op rs rd) := by
  intro _
  simp only [decode, encode, decodeThumb, classify_wordAluOperation, Except.ok.injEq, Instr.aluOperation.injEq]
  refine ⟨?_, ?_, ?_⟩
  · refine (congrArg AluOp.ofCode (extract_of_bits (a := op.code) fun i hi => ?_)).trans
      (AluOp_ofCode_code op)
    interval_cases i <;>
      simp only [wordAluOperation, getLsbD_toHalf, BitVec.getLsbD_append, -Nat.reduceAdd] <;> simp
  · exact extract_of_bits fun i hi => by
      interval_cases i <;>
        simp only [wordAluOperation, getLsbD_toHalf, BitVec.getLsbD_append, -Nat.reduceAdd] <;> simp
  · exact extract_of_bits fun i hi => by
      interval_cases i <;>
        simp only [wordAluOperation, getLsbD_toHalf, BitVec.getLsbD_append, -Nat.reduceAdd] <;> simp

theorem hiRegisterOperationsBranchExchange (op : HiOp) (h1 h2 : Bool) (rs rd : RegField) :
    Statement (.hiRegisterOperationsBranchExchange op h1 h2 rs rd) := by
  intro _
  simp only [decode, encode, decodeThumb, classify_wordHiRegisterOperationsBranchExchange, Except.ok.injEq, Instr.hiRegisterOperationsBranchExchange.injEq]
  refine ⟨?_, ?_, ?_, ?_, ?_⟩
  · refine (congrArg HiOp.ofCode (extract_of_bits (a := op.code) fun i hi => ?_)).trans
      (HiOp_ofCode_code op)
    interval_cases i <;>
      simp only [wordHiRegisterOperationsBranchExchange, getLsbD_toHalf, BitVec.getLsbD_append, -Nat.reduceAdd] <;> simp
  · simp only [bitAt, wordHiRegisterOperationsBranchExchange, getLsbD_toHalf, BitVec.getLsbD_append, -Nat.reduceAdd]
    simp [bit]
  · simp only [bitAt, wordHiRegisterOperationsBranchExchange, getLsbD_toHalf, BitVec.getLsbD_append, -Nat.reduceAdd]
    simp [bit]
  · exact extract_of_bits fun i hi => by
      interval_cases i <;>
        simp only [wordHiRegisterOperationsBranchExchange, getLsbD_toHalf, BitVec.getLsbD_append, -Nat.reduceAdd] <;> simp
  · exact extract_of_bits fun i hi => by
      interval_cases i <;>
        simp only [wordHiRegisterOperationsBranchExchange, getLsbD_toHalf, BitVec.getLsbD_append, -Nat.reduceAdd] <;> simp

theorem pcRelativeLoad (rd : RegField) (word8 : BitVec 8) :
    Statement (.pcRelativeLoad rd word8) := by
  intro _
  simp only [decode, encode, decodeThumb, classify_wordPcRelativeLoad, Except.ok.injEq, Instr.pcRelativeLoad.injEq]
  refine ⟨?_, ?_⟩
  · exact extract_of_bits fun i hi => by
      interval_cases i <;>
        simp only [wordPcRelativeLoad, getLsbD_toHalf, BitVec.getLsbD_append, -Nat.reduceAdd] <;> simp
  · exact extract_of_bits fun i hi => by
      interval_cases i <;>
        simp only [wordPcRelativeLoad, getLsbD_toHalf, BitVec.getLsbD_append, -Nat.reduceAdd] <;> simp

theorem loadStoreWithRegisterOffset (l b : Bool) (ro rb rd : RegField) :
    Statement (.loadStoreWithRegisterOffset l b ro rb rd) := by
  intro _
  simp only [decode, encode, decodeThumb, classify_wordLoadStoreWithRegisterOffset, Except.ok.injEq, Instr.loadStoreWithRegisterOffset.injEq]
  refine ⟨?_, ?_, ?_, ?_, ?_⟩
  · simp only [bitAt, wordLoadStoreWithRegisterOffset, getLsbD_toHalf, BitVec.getLsbD_append, -Nat.reduceAdd]
    simp [bit]
  · simp only [bitAt, wordLoadStoreWithRegisterOffset, getLsbD_toHalf, BitVec.getLsbD_append, -Nat.reduceAdd]
    simp [bit]
  · exact extract_of_bits fun i hi => by
      interval_cases i <;>
        simp only [wordLoadStoreWithRegisterOffset, getLsbD_toHalf, BitVec.getLsbD_append, -Nat.reduceAdd] <;> simp
  · exact extract_of_bits fun i hi => by
      interval_cases i <;>
        simp only [wordLoadStoreWithRegisterOffset, getLsbD_toHalf, BitVec.getLsbD_append, -Nat.reduceAdd] <;> simp
  · exact extract_of_bits fun i hi => by
      interval_cases i <;>
        simp only [wordLoadStoreWithRegisterOffset, getLsbD_toHalf, BitVec.getLsbD_append, -Nat.reduceAdd] <;> simp

theorem loadStoreSignExtendedByteHalfword (h s : Bool) (ro rb rd : RegField) :
    Statement (.loadStoreSignExtendedByteHalfword h s ro rb rd) := by
  intro _
  simp only [decode, encode, decodeThumb, classify_wordLoadStoreSignExtendedByteHalfword, Except.ok.injEq, Instr.loadStoreSignExtendedByteHalfword.injEq]
  refine ⟨?_, ?_, ?_, ?_, ?_⟩
  · simp only [bitAt, wordLoadStoreSignExtendedByteHalfword, getLsbD_toHalf, BitVec.getLsbD_append, -Nat.reduceAdd]
    simp [bit]
  · simp only [bitAt, wordLoadStoreSignExtendedByteHalfword, getLsbD_toHalf, BitVec.getLsbD_append, -Nat.reduceAdd]
    simp [bit]
  · exact extract_of_bits fun i hi => by
      interval_cases i <;>
        simp only [wordLoadStoreSignExtendedByteHalfword, getLsbD_toHalf, BitVec.getLsbD_append, -Nat.reduceAdd] <;> simp
  · exact extract_of_bits fun i hi => by
      interval_cases i <;>
        simp only [wordLoadStoreSignExtendedByteHalfword, getLsbD_toHalf, BitVec.getLsbD_append, -Nat.reduceAdd] <;> simp
  · exact extract_of_bits fun i hi => by
      interval_cases i <;>
        simp only [wordLoadStoreSignExtendedByteHalfword, getLsbD_toHalf, BitVec.getLsbD_append, -Nat.reduceAdd] <;> simp

theorem loadStoreWithImmediateOffset (b l : Bool) (offset5 : BitVec 5) (rb rd : RegField) :
    Statement (.loadStoreWithImmediateOffset b l offset5 rb rd) := by
  intro _
  simp only [decode, encode, decodeThumb, classify_wordLoadStoreWithImmediateOffset, Except.ok.injEq, Instr.loadStoreWithImmediateOffset.injEq]
  refine ⟨?_, ?_, ?_, ?_, ?_⟩
  · simp only [bitAt, wordLoadStoreWithImmediateOffset, getLsbD_toHalf, BitVec.getLsbD_append, -Nat.reduceAdd]
    simp [bit]
  · simp only [bitAt, wordLoadStoreWithImmediateOffset, getLsbD_toHalf, BitVec.getLsbD_append, -Nat.reduceAdd]
    simp [bit]
  · exact extract_of_bits fun i hi => by
      interval_cases i <;>
        simp only [wordLoadStoreWithImmediateOffset, getLsbD_toHalf, BitVec.getLsbD_append, -Nat.reduceAdd] <;> simp
  · exact extract_of_bits fun i hi => by
      interval_cases i <;>
        simp only [wordLoadStoreWithImmediateOffset, getLsbD_toHalf, BitVec.getLsbD_append, -Nat.reduceAdd] <;> simp
  · exact extract_of_bits fun i hi => by
      interval_cases i <;>
        simp only [wordLoadStoreWithImmediateOffset, getLsbD_toHalf, BitVec.getLsbD_append, -Nat.reduceAdd] <;> simp

theorem loadStoreHalfword (l : Bool) (offset5 : BitVec 5) (rb rd : RegField) :
    Statement (.loadStoreHalfword l offset5 rb rd) := by
  intro _
  simp only [decode, encode, decodeThumb, classify_wordLoadStoreHalfword, Except.ok.injEq, Instr.loadStoreHalfword.injEq]
  refine ⟨?_, ?_, ?_, ?_⟩
  · simp only [bitAt, wordLoadStoreHalfword, getLsbD_toHalf, BitVec.getLsbD_append, -Nat.reduceAdd]
    simp [bit]
  · exact extract_of_bits fun i hi => by
      interval_cases i <;>
        simp only [wordLoadStoreHalfword, getLsbD_toHalf, BitVec.getLsbD_append, -Nat.reduceAdd] <;> simp
  · exact extract_of_bits fun i hi => by
      interval_cases i <;>
        simp only [wordLoadStoreHalfword, getLsbD_toHalf, BitVec.getLsbD_append, -Nat.reduceAdd] <;> simp
  · exact extract_of_bits fun i hi => by
      interval_cases i <;>
        simp only [wordLoadStoreHalfword, getLsbD_toHalf, BitVec.getLsbD_append, -Nat.reduceAdd] <;> simp

theorem spRelativeLoadStore (l : Bool) (rd : RegField) (word8 : BitVec 8) :
    Statement (.spRelativeLoadStore l rd word8) := by
  intro _
  simp only [decode, encode, decodeThumb, classify_wordSpRelativeLoadStore, Except.ok.injEq, Instr.spRelativeLoadStore.injEq]
  refine ⟨?_, ?_, ?_⟩
  · simp only [bitAt, wordSpRelativeLoadStore, getLsbD_toHalf, BitVec.getLsbD_append, -Nat.reduceAdd]
    simp [bit]
  · exact extract_of_bits fun i hi => by
      interval_cases i <;>
        simp only [wordSpRelativeLoadStore, getLsbD_toHalf, BitVec.getLsbD_append, -Nat.reduceAdd] <;> simp
  · exact extract_of_bits fun i hi => by
      interval_cases i <;>
        simp only [wordSpRelativeLoadStore, getLsbD_toHalf, BitVec.getLsbD_append, -Nat.reduceAdd] <;> simp

theorem loadAddress (sp : Bool) (rd : RegField) (word8 : BitVec 8) :
    Statement (.loadAddress sp rd word8) := by
  intro _
  simp only [decode, encode, decodeThumb, classify_wordLoadAddress, Except.ok.injEq, Instr.loadAddress.injEq]
  refine ⟨?_, ?_, ?_⟩
  · simp only [bitAt, wordLoadAddress, getLsbD_toHalf, BitVec.getLsbD_append, -Nat.reduceAdd]
    simp [bit]
  · exact extract_of_bits fun i hi => by
      interval_cases i <;>
        simp only [wordLoadAddress, getLsbD_toHalf, BitVec.getLsbD_append, -Nat.reduceAdd] <;> simp
  · exact extract_of_bits fun i hi => by
      interval_cases i <;>
        simp only [wordLoadAddress, getLsbD_toHalf, BitVec.getLsbD_append, -Nat.reduceAdd] <;> simp

theorem addOffsetToStackPointer (x : Bool) (y : BitVec 2) (s : Bool) (sword7 : BitVec 7) :
    Statement (.addOffsetToStackPointer x y s sword7) := by
  intro _
  simp only [decode, encode, decodeThumb, classify_wordAddOffsetToStackPointer, Except.ok.injEq, Instr.addOffsetToStackPointer.injEq]
  refine ⟨?_, ?_, ?_, ?_⟩
  · simp only [bitAt, wordAddOffsetToStackPointer, getLsbD_toHalf, BitVec.getLsbD_append, -Nat.reduceAdd]
    simp [bit]
  · exact extract_of_bits fun i hi => by
      interval_cases i <;>
        simp only [wordAddOffsetToStackPointer, getLsbD_toHalf, BitVec.getLsbD_append, -Nat.reduceAdd] <;> simp
  · simp only [bitAt, wordAddOffsetToStackPointer, getLsbD_toHalf, BitVec.getLsbD_append, -Nat.reduceAdd]
    simp [bit]
  · exact extract_of_bits fun i hi => by
      interval_cases i <;>
        simp only [wordAddOffsetToStackPointer, getLsbD_toHalf, BitVec.getLsbD_append, -Nat.reduceAdd] <;> simp

theorem pushPopRegisters (l x r : Bool) (rlist : BitVec 8) :
    Statement (.pushPopRegisters l x r rlist) := by
  intro _
  simp only [decode, encode, decodeThumb, classify_wordPushPopRegisters, Except.ok.injEq, Instr.pushPopRegisters.injEq]
  refine ⟨?_, ?_, ?_, ?_⟩
  · simp only [bitAt, wordPushPopRegisters, getLsbD_toHalf, BitVec.getLsbD_append, -Nat.reduceAdd]
    simp [bit]
  · simp only [bitAt, wordPushPopRegisters, getLsbD_toHalf, BitVec.getLsbD_append, -Nat.reduceAdd]
    simp [bit]
  · simp only [bitAt, wordPushPopRegisters, getLsbD_toHalf, BitVec.getLsbD_append, -Nat.reduceAdd]
    simp [bit]
  · exact extract_of_bits fun i hi => by
      interval_cases i <;>
        simp only [wordPushPopRegisters, getLsbD_toHalf, BitVec.getLsbD_append, -Nat.reduceAdd] <;> simp

theorem multipleLoadStore (l : Bool) (rb : RegField) (rlist : BitVec 8) :
    Statement (.multipleLoadStore l rb rlist) := by
  intro _
  simp only [decode, encode, decodeThumb, classify_wordMultipleLoadStore, Except.ok.injEq, Instr.multipleLoadStore.injEq]
  refine ⟨?_, ?_, ?_⟩
  · simp only [bitAt, wordMultipleLoadStore, getLsbD_toHalf, BitVec.getLsbD_append, -Nat.reduceAdd]
    simp [bit]
  · exact extract_of_bits fun i hi => by
      interval_cases i <;>
        simp only [wordMultipleLoadStore, getLsbD_toHalf, BitVec.getLsbD_append, -Nat.reduceAdd] <;> simp
  · exact extract_of_bits fun i hi => by
      interval_cases i <;>
        simp only [wordMultipleLoadStore, getLsbD_toHalf, BitVec.getLsbD_append, -Nat.reduceAdd] <;> simp

theorem conditionalBranch (cond : BitVec 4) (soffset8 : BitVec 8) :
    Statement (.conditionalBranch cond soffset8) := by
  intro hwf
  have h : cond ≠ 0b1111#4 := by simpa [Instr.wf] using hwf
  simp only [decode, encode, decodeThumb, classify_wordConditionalBranch h, Except.ok.injEq, Instr.conditionalBranch.injEq]
  refine ⟨?_, ?_⟩
  · exact extract_of_bits fun i hi => by
      interval_cases i <;>
        simp only [wordConditionalBranch, getLsbD_toHalf, BitVec.getLsbD_append, -Nat.reduceAdd] <;> simp
  · exact extract_of_bits fun i hi => by
      interval_cases i <;>
        simp only [wordConditionalBranch, getLsbD_toHalf, BitVec.getLsbD_append, -Nat.reduceAdd] <;> simp

theorem softwareInterrupt (value8 : BitVec 8) :
    Statement (.softwareInterrupt value8) := by
  intro _
  simp only [decode, encode, decodeThumb, classify_wordSoftwareInterrupt, Except.ok.injEq, Instr.softwareInterrupt.injEq]
  exact extract_of_bits fun i hi => by
    interval_cases i <;>
      simp only [wordSoftwareInterrupt, getLsbD_toHalf, BitVec.getLsbD_append, -Nat.reduceAdd] <;> simp

theorem unconditionalBranch (x : Bool) (offset11 : BitVec 11) :
    Statement (.unconditionalBranch x offset11) := by
  intro _
  simp only [decode, encode, decodeThumb, classify_wordUnconditionalBranch, Except.ok.injEq, Instr.unconditionalBranch.injEq]
  refine ⟨?_, ?_⟩
  · simp only [bitAt, wordUnconditionalBranch, getLsbD_toHalf, BitVec.getLsbD_append, -Nat.reduceAdd]
    simp [bit]
  · exact extract_of_bits fun i hi => by
      interval_cases i <;>
        simp only [wordUnconditionalBranch, getLsbD_toHalf, BitVec.getLsbD_append, -Nat.reduceAdd] <;> simp

theorem longBranchWithLink (h : Bool) (offset : BitVec 11) :
    Statement (.longBranchWithLink h offset) := by
  intro _
  simp only [decode, encode, decodeThumb, classify_wordLongBranchWithLink, Except.ok.injEq, Instr.longBranchWithLink.injEq]
  refine ⟨?_, ?_⟩
  · simp only [bitAt, wordLongBranchWithLink, getLsbD_toHalf, BitVec.getLsbD_append, -Nat.reduceAdd]
    simp [bit]
  · exact extract_of_bits fun i hi => by
      interval_cases i <;>
        simp only [wordLongBranchWithLink, getLsbD_toHalf, BitVec.getLsbD_append, -Nat.reduceAdd] <;> simp

/-! ## Port commands -/

theorem operationCode_commandWord (op : BitVec 4) (a : BitVec 5) :
    operationCode (commandWord op a) = op := by
  revert op a
  decide

theorem fieldA_commandWord (op : BitVec 4) (a : BitVec 5) : fieldA (commandWord op a) 5 = .ok a := by
  revert op a
  decide

theorem decode_getCommand (b : StatusBit) : decodeCommand (getCommand b) .none = .ok b.getter := by
  cases b <;> rfl

theorem decode_setCommand (b : StatusBit) (v : Bool) :
    decodeCommand (setCommand b v) .none = .ok (b.setter v) := by
  cases b <;> cases v <;> rfl

theorem read (i : IndexOperand) : Statement (.read i) := fun _ => by
  simp [decode, encode, decodeCommand, operationCode_commandWord, fieldA_commandWord, noData, bind,
    Except.bind, pure, Except.pure]

theorem write (i : IndexOperand) (v : Word) : Statement (.write i v) := fun _ => by
  simp [decode, encode, decodeCommand, operationCode_commandWord, fieldA_commandWord, wordData, bind,
    Except.bind, pure, Except.pure]

theorem exportStore : Statement .exportStore := fun _ => rfl

theorem importStore (s : List Word) : Statement (.importStore s) := fun _ => rfl

theorem label (i : IndexOperand) : Statement (.label i) := fun _ => by
  simp [decode, encode, decodeCommand, operationCode_commandWord, fieldA_commandWord, noData, bind,
    Except.bind, pure, Except.pure]

theorem getMode : Statement .getMode := fun _ => rfl

theorem setMode (t : ProcessorMode) : Statement (.setMode t) := fun _ => by
  simp [decode, encode, decodeCommand, operationCode_commandWord, fieldA_commandWord, noData, modeOperand,
    bind, Except.bind, pure, Except.pure]

theorem getT : Statement .getT := fun _ => decode_getCommand .t

theorem getF : Statement .getF := fun _ => decode_getCommand .f

theorem getI : Statement .getI := fun _ => decode_getCommand .i

theorem getV : Statement .getV := fun _ => decode_getCommand .v

theorem getC : Statement .getC := fun _ => decode_getCommand .c

theorem getZ : Statement .getZ := fun _ => decode_getCommand .z

theorem getN : Statement .getN := fun _ => decode_getCommand .n

theorem setT (v : Bool) : Statement (.setT v) := fun _ => decode_setCommand .t v

theorem setF (v : Bool) : Statement (.setF v) := fun _ => decode_setCommand .f v

theorem setI (v : Bool) : Statement (.setI v) := fun _ => decode_setCommand .i v

theorem setV (v : Bool) : Statement (.setV v) := fun _ => decode_setCommand .v v

theorem setC (v : Bool) : Statement (.setC v) := fun _ => decode_setCommand .c v

theorem setZ (v : Bool) : Statement (.setZ v) := fun _ => decode_setCommand .z v

theorem setN (v : Bool) : Statement (.setN v) := fun _ => decode_setCommand .n v

theorem classify (w : Half) : Statement (.classify w) := fun _ => rfl

theorem reset : Statement .reset := fun _ => rfl

end Sys2Proof.Laws.DecodeEncode
end

