-- ==== Sys2Proof/Tests/Slice0.lean ====
section
/-! SUPPORT. Tests: the well-formedness smoke, the decoding of words written out bit by bit from the
spec's encodings, single steps whose expected results are the vectors of spec/95_test_vectors.md, and a
witness for the hypotheses of every statement. -/

namespace Sys2Proof.Tests

open Sys2Proof Sys2Proof.Machine

/-- The reset state with another CPSR. -/
def withCpsr (c : Word) : State := { State.reset with slots := State.reset.slots.setSlot cpsrSlot c }

/-- The reset state, stopped by the fatal error. -/
def stopped : State :=
  { State.reset with faulted := true, response := .error (.invalidMode 0b00000#5) }

/-- The state after an outcome, if there is one. -/
def after (o : Host.Outcome State Fault Refusal) : Option State :=
  match o with
  | .next t => some t
  | .fault _ | .refused _ => none

/-- What an outcome answers. -/
def answer (o : Host.Outcome State Fault Refusal) : Option Response := (after o).map (·.response)

/-- A slot after an outcome. -/
def slotAfter (o : Host.Outcome State Fault Refusal) (k : Slot) : Option Word :=
  (after o).map (·.slots.slot k)

/-- The next state after one more instruction. -/
def thenExec (o : Host.Outcome State Fault Refusal) (i : Instr) : Host.Outcome State Fault Refusal :=
  match o with
  | .next t => exec i t
  | .fault f => .fault f
  | .refused r => .refused r

/-- One step on the request of an opcode-table word, from reset. -/
def stepWord (w : Nat) : Host.Outcome State Fault Refusal := step (State.reset.withFetchWord 16 w)

/-! ## Well-formedness -/

theorem test_wf_refuses_format1_op11 : (Instr.moveShiftedRegister 0b11#2 0#5 0#3 0#3).wf = false := by decide
theorem test_wf_refuses_format16_cond1111 : (Instr.conditionalBranch 0b1111#4 0#8).wf = false := by decide
theorem test_wf_accepts_index_31 : (Instr.read 31#5).wf = true := by decide

/-! ## Decoding: THUMB words, bit by bit from R54 to R72 -/

theorem test_decode_format1 : decode (.thumb 0b000_01_00101_010_011#16) = .ok (.moveShiftedRegister 0b01#2 5#5 2#3 3#3) := rfl
theorem test_decode_format2 : decode (.thumb 0b00011_1_0_110_010_001#16) = .ok (.addSubtract true false 6#3 2#3 1#3) := rfl
theorem test_decode_format3 : decode (.thumb 0b001_10_011_10000001#16) = .ok (.moveCompareAddSubtractImmediate .add 3#3 0x81#8) := rfl
theorem test_decode_format4 : decode (.thumb 0b010000_1101_001_110#16) = .ok (.aluOperation .mul 1#3 6#3) := rfl
theorem test_decode_format5 : decode (.thumb 0b010001_11_0_1_110_000#16) = .ok (.hiRegisterOperationsBranchExchange .bx false true 6#3 0#3) := rfl
theorem test_decode_format6 : decode (.thumb 0b01001_101_00000001#16) = .ok (.pcRelativeLoad 5#3 1#8) := rfl
theorem test_decode_format7 : decode (.thumb 0b0101_1_0_0_010_001_000#16) = .ok (.loadStoreWithRegisterOffset true false 2#3 1#3 0#3) := rfl
theorem test_decode_format8 : decode (.thumb 0b0101_0_1_1_010_001_000#16) = .ok (.loadStoreSignExtendedByteHalfword false true 2#3 1#3 0#3) := rfl
theorem test_decode_format9 : decode (.thumb 0b011_1_0_10001_001_010#16) = .ok (.loadStoreWithImmediateOffset true false 17#5 1#3 2#3) := rfl
theorem test_decode_format10 : decode (.thumb 0b1000_1_10000_001_010#16) = .ok (.loadStoreHalfword true 16#5 1#3 2#3) := rfl
theorem test_decode_format11 : decode (.thumb 0b1001_0_111_00000001#16) = .ok (.spRelativeLoadStore false 7#3 1#8) := rfl
theorem test_decode_format12 : decode (.thumb 0b1010_1_010_00000001#16) = .ok (.loadAddress true 2#3 1#8) := rfl
theorem test_decode_format13 : decode (.thumb 0b10110000_1_0000010#16) = .ok (.addOffsetToStackPointer false 0b00#2 true 2#7) := rfl
theorem test_decode_format14 : decode (.thumb 0b1011_1_10_1_00010000#16) = .ok (.pushPopRegisters true false true 0x10#8) := rfl
theorem test_decode_format15 : decode (.thumb 0b1100_1_011_00000110#16) = .ok (.multipleLoadStore true 3#3 0x06#8) := rfl
theorem test_decode_format16 : decode (.thumb 0b1101_1010_11111110#16) = .ok (.conditionalBranch 0b1010#4 0xFE#8) := rfl
theorem test_decode_format17 : decode (.thumb 0b11011111_00000101#16) = .ok (.softwareInterrupt 5#8) := rfl
theorem test_decode_format18 : decode (.thumb 0b11100_11111111110#16) = .ok (.unconditionalBranch false 0x7FE#11) := rfl
theorem test_decode_format19 : decode (.thumb 0b1111_1_00000000011#16) = .ok (.longBranchWithLink true 3#11) := rfl
theorem test_decode_format13_undefined_in_reference :
    decode (.thumb 0b1011_1_0_01_1_0000010#16) = .ok (.addOffsetToStackPointer true 0b01#2 true 2#7) := rfl
theorem test_decode_format18_undefined_in_reference :
    decode (.thumb 0b1110_1_00000000001#16) = .ok (.unconditionalBranch true 1#11) := rfl

/-! ## Decoding: command words, bit by bit from R73 -/

theorem test_decode_read :
    decode (.command 0b0000_000_01101#12 .none) = .ok (.read 13#5) := rfl
theorem test_decode_write :
    decode (.command 0b0001_000_01111#12 (.word 0x08000001#32)) = .ok (.write 15#5 0x08000001#32) := rfl
theorem test_decode_export :
    decode (.command 0b0010_00000000#12 .none) = .ok (.exportStore) := rfl
theorem test_decode_import :
    decode (.command 0b0011_00000000#12 (.words [1#32, 2#32])) = .ok (.importStore [1#32, 2#32]) := rfl
theorem test_decode_label :
    decode (.command 0b0100_000_01000#12 .none) = .ok (.label 8#5) := rfl
theorem test_decode_getmode :
    decode (.command 0b0101_00000000#12 .none) = .ok (.getMode) := rfl
theorem test_decode_setmode_fiq :
    decode (.command 0b0110_000_10001#12 .none) = .ok (.setMode .fiq) := rfl
theorem test_decode_setmode_und :
    decode (.command 0b0110_000_11011#12 .none) = .ok (.setMode .und) := rfl
theorem test_decode_get_t :
    decode (.command 0b0111_000_00101#12 .none) = .ok (.getT) := rfl
theorem test_decode_get_f :
    decode (.command 0b0111_000_00110#12 .none) = .ok (.getF) := rfl
theorem test_decode_get_i :
    decode (.command 0b0111_000_00111#12 .none) = .ok (.getI) := rfl
theorem test_decode_get_v :
    decode (.command 0b0111_000_11100#12 .none) = .ok (.getV) := rfl
theorem test_decode_get_c :
    decode (.command 0b0111_000_11101#12 .none) = .ok (.getC) := rfl
theorem test_decode_get_z :
    decode (.command 0b0111_000_11110#12 .none) = .ok (.getZ) := rfl
theorem test_decode_get_n :
    decode (.command 0b0111_000_11111#12 .none) = .ok (.getN) := rfl
theorem test_decode_set_t :
    decode (.command 0b1000_00_0_00101#12 .none) = .ok (.setT false) := rfl
theorem test_decode_set_f :
    decode (.command 0b1000_00_1_00110#12 .none) = .ok (.setF true) := rfl
theorem test_decode_set_i :
    decode (.command 0b1000_00_0_00111#12 .none) = .ok (.setI false) := rfl
theorem test_decode_set_v :
    decode (.command 0b1000_00_1_11100#12 .none) = .ok (.setV true) := rfl
theorem test_decode_set_c :
    decode (.command 0b1000_00_0_11101#12 .none) = .ok (.setC false) := rfl
theorem test_decode_set_z :
    decode (.command 0b1000_00_1_11110#12 .none) = .ok (.setZ true) := rfl
theorem test_decode_set_n :
    decode (.command 0b1000_00_0_11111#12 .none) = .ok (.setN false) := rfl
theorem test_decode_classify :
    decode (.command 0b1001_00000000#12 (.half 0x4770#16)) = .ok (.classify 0x4770#16) := rfl
theorem test_decode_reset :
    decode (.command 0b1010_00000000#12 .none) = .ok (.reset) := rfl

/-! ## Refused commands (V39, V52, V110 to V112) -/

theorem test_V39 : decode (.command 0x600#12 .none) = .error (.notAModeCode 0b00000#5) := rfl
theorem test_V52 : decode (.command 0x708#12 .none) = .error (.notAFlagPosition 8#5) := rfl
theorem test_V110 : decode (.command 0xB00#12 .none) = .error (.reservedOperation 0b1011#4) := rfl
theorem test_V111 : decode (.command 0x020#12 .none) = .error (.unusedFieldBits 0x020#12) := rfl
theorem test_V112 : decode (.command 0x201#12 .none) = .error (.unusedFieldBits 0x201#12) := rfl
theorem test_refused_while_stopped :
    step { stopped with pending := [.command 0xB00#12 .none] } =
      .refused (.undecodable (.reservedOperation 0b1011#4)) := rfl

/-! ## Words as the opcode table numbers them -/

theorem test_table_read : decodeTableWord 16 0x000D = some (.read 13#5) := by decide
theorem test_table_write : decodeTableWord 16 (0x010F + 0x08000001 * 65536) = some (.write 15#5 0x08000001#32) := by
  decide
theorem test_table_thumb : decodeTableWord 16 0xD0FE = some (.conditionalBranch 0#4 0xFE#8) := by decide
theorem test_table_step : step (State.reset.withFetchWord 16 0x0613) = exec (.setMode .svc) State.reset := rfl

/-! ## READ and WRITE -/

theorem test_V2 : answer (exec (.read 16#5) State.reset) = some (.word 0x00000010#32) := by decide
theorem test_V10 : answer (exec (.read 17#5) State.reset) = some (.error (.outOfRange 17#5)) := by decide
theorem test_V4 : slotAfter (exec (.write 8#5 0xDEADBEEF#32) (withCpsr 0x11#32)) 17 = some 0xDEADBEEF#32 := by decide
theorem test_V16 : (after (exec (.write 3#5 1#32) (withCpsr 0x0000001E#32))).map
    (fun t => (t.faulted, t.response, t.slots.slot 3)) =
    some (true, .error (.invalidMode 0b11110#5), 0#32) := by decide

/-! ## EXPORT, IMPORT, LABEL -/

theorem test_V23 : answer (exec .exportStore (withCpsr 0#32)) =
    some (.snapshot (Vector.replicate 37 0#32)) := by decide
theorem test_V21 : answer (thenExec (exec (.importStore
    ((List.range 37).map fun k => if k = 16 then 0x11#32 else BitVec.ofNat 32 k)) State.reset) (.read 8#5)) =
    some (.word 17#32) := by decide
theorem test_V18 : answer (exec (.importStore (List.replicate 36 1#32)) State.reset) =
    some (.error (.snapshotSizeMismatch 36)) := by decide
theorem test_V24 : answer (exec (.label 8#5) (withCpsr 0x11#32)) = some (.label "r8_fiq") := by decide
theorem test_V26 : answer (exec (.label 13#5) State.reset) = some (.label "SP") := by decide

/-! ## GETMODE and SETMODE -/

theorem test_V29 : answer (exec .getMode State.reset) = some (.mode .user) := by decide
theorem test_V40 : (after (exec .getMode (withCpsr 0#32))).map (fun t => (t.faulted, t.response)) =
    some (true, .error (.invalidMode 0b00000#5)) := by decide
theorem test_V38 : (after (exec (.setMode .abt) (withCpsr 0x0FFFFF13#32))).map
    (fun t => (t.slots.slot 30, t.slots.slot 16)) = some (0x0FFFFF13#32, 0x0FFFFF17#32) := by decide
theorem test_V37 : (after (exec (.setMode .user) (withCpsr 0x12345678#32))).map
    (fun t => (t.faulted, t.slots.slot 16)) = some (true, 0x12345678#32) := by decide

/-! ## Getters and setters -/

/-- The example of R86, and the bit alone clear. -/
theorem test_get_t : answer (exec .getT (withCpsr 0x00000030#32)) = some (.bit true) ∧
    answer (exec .getT (withCpsr 0xFFFFFFDF#32)) = some (.bit false) := by decide
/-- The example of R93. -/
theorem test_set_t : slotAfter (exec (.setT true) State.reset) 16 = some 0x00000030#32 ∧
    slotAfter (exec (.setT false) (withCpsr 0x00000030#32)) 16 = some 0x00000010#32 := by decide
/-- The example of R87, and the bit alone clear. -/
theorem test_get_f : answer (exec .getF (withCpsr 0x00000050#32)) = some (.bit true) ∧
    answer (exec .getF (withCpsr 0xFFFFFFBF#32)) = some (.bit false) := by decide
/-- The example of R94. -/
theorem test_set_f : slotAfter (exec (.setF true) State.reset) 16 = some 0x00000050#32 ∧
    slotAfter (exec (.setF false) (withCpsr 0x00000050#32)) 16 = some 0x00000010#32 := by decide
/-- The example of R88, and the bit alone clear. -/
theorem test_get_i : answer (exec .getI (withCpsr 0x00000090#32)) = some (.bit true) ∧
    answer (exec .getI (withCpsr 0xFFFFFF7F#32)) = some (.bit false) := by decide
/-- The example of R95. -/
theorem test_set_i : slotAfter (exec (.setI true) State.reset) 16 = some 0x00000090#32 ∧
    slotAfter (exec (.setI false) (withCpsr 0x00000090#32)) 16 = some 0x00000010#32 := by decide
/-- The example of R89, and the bit alone clear. -/
theorem test_get_v : answer (exec .getV (withCpsr 0x10000010#32)) = some (.bit true) ∧
    answer (exec .getV (withCpsr 0xEFFFFFFF#32)) = some (.bit false) := by decide
/-- The example of R96. -/
theorem test_set_v : slotAfter (exec (.setV true) State.reset) 16 = some 0x10000010#32 ∧
    slotAfter (exec (.setV false) (withCpsr 0x10000010#32)) 16 = some 0x00000010#32 := by decide
/-- The example of R90, and the bit alone clear. -/
theorem test_get_c : answer (exec .getC (withCpsr 0x20000010#32)) = some (.bit true) ∧
    answer (exec .getC (withCpsr 0xDFFFFFFF#32)) = some (.bit false) := by decide
/-- The example of R97. -/
theorem test_set_c : slotAfter (exec (.setC true) State.reset) 16 = some 0x20000010#32 ∧
    slotAfter (exec (.setC false) (withCpsr 0x20000010#32)) 16 = some 0x00000010#32 := by decide
/-- The example of R91, and the bit alone clear. -/
theorem test_get_z : answer (exec .getZ (withCpsr 0x40000010#32)) = some (.bit true) ∧
    answer (exec .getZ (withCpsr 0xBFFFFFFF#32)) = some (.bit false) := by decide
/-- The example of R98. -/
theorem test_set_z : slotAfter (exec (.setZ true) State.reset) 16 = some 0x40000010#32 ∧
    slotAfter (exec (.setZ false) (withCpsr 0x40000010#32)) 16 = some 0x00000010#32 := by decide
/-- The example of R92, and the bit alone clear. -/
theorem test_get_n : answer (exec .getN (withCpsr 0x80000010#32)) = some (.bit true) ∧
    answer (exec .getN (withCpsr 0x7FFFFFFF#32)) = some (.bit false) := by decide
/-- The example of R99. -/
theorem test_set_n : slotAfter (exec (.setN true) State.reset) 16 = some 0x80000010#32 ∧
    slotAfter (exec (.setN false) (withCpsr 0x80000010#32)) 16 = some 0x00000010#32 := by decide

/-! ## CLASSIFY, RESET, and the THUMB words of R103 to R121 -/

theorem test_V107 : answer (exec (.classify 0x4770#16) (withCpsr 0#32)) =
    some (.format .hiRegisterOperationsBranchExchange) := by decide
theorem test_V105 : answer (exec (.classify 0xFFFF#16) State.reset) = some (.format .longBranchWithLink) := by decide
theorem test_V109 : exec .reset stopped = .next State.reset := rfl

theorem test_step_format1 : answer (stepWord 0x17FF) = some (.format .moveShiftedRegister) := by decide
theorem test_step_format2 : answer (stepWord 0x1888) = some (.format .addSubtract) := by decide
theorem test_step_format3 : answer (stepWord 0x2001) = some (.format .moveCompareAddSubtractImmediate) := by decide
theorem test_step_format4 : answer (stepWord 0x4008) = some (.format .aluOperation) := by decide
theorem test_step_format5 : answer (stepWord 0x4770) = some (.format .hiRegisterOperationsBranchExchange) := by decide
theorem test_step_format6 : answer (stepWord 0x4801) = some (.format .pcRelativeLoad) := by decide
theorem test_step_format7 : answer (stepWord 0x5888) = some (.format .loadStoreWithRegisterOffset) := by decide
theorem test_step_format8 : answer (stepWord 0x5E88) = some (.format .loadStoreSignExtendedByteHalfword) := by decide
theorem test_step_format9 : answer (stepWord 0x7FFF) = some (.format .loadStoreWithImmediateOffset) := by decide
theorem test_step_format10 : answer (stepWord 0x8808) = some (.format .loadStoreHalfword) := by decide
theorem test_step_format11 : answer (stepWord 0x9801) = some (.format .spRelativeLoadStore) := by decide
theorem test_step_format12 : answer (stepWord 0xA801) = some (.format .loadAddress) := by decide
theorem test_step_format13 : answer (stepWord 0xB082) = some (.format .addOffsetToStackPointer) := by decide
theorem test_step_format14 : answer (stepWord 0xB500) = some (.format .pushPopRegisters) := by decide
theorem test_step_format15 : answer (stepWord 0xCFFF) = some (.format .multipleLoadStore) := by decide
theorem test_step_format16 : answer (stepWord 0xDEFF) = some (.format .conditionalBranch) := by decide
theorem test_step_format17 : answer (stepWord 0xDFFF) = some (.format .softwareInterrupt) := by decide
theorem test_step_format18 : answer (stepWord 0xE7FE) = some (.format .unconditionalBranch) := by decide
theorem test_step_format19 : answer (stepWord 0xF800) = some (.format .longBranchWithLink) := by decide

/-! ## Witnesses: the hypotheses of each statement, met together, clause by clause at the ends of the ranges

A witness is named after its statement. A clause with an instruction's next state as hypothesis is given
the instruction that runs it. -/

theorem witness_ResetReturnsEveryStateToTheDefault :
    stopped.faulted = true ∧ exec .reset stopped = .next State.reset := ⟨by decide, rfl⟩

theorem witness_ModeDecodesExactlyTheSevenCodes :
    ((withCpsr 0xFFFFFFF0#32).slots.slot 16).extractLsb' 0 5 = 0b10000#5 ∧
    ((withCpsr 0x0000001F#32).slots.slot 16).extractLsb' 0 5 = 0b11111#5 ∧
    ∀ b ∈ [0b10000#5, 0b10001#5, 0b10010#5, 0b10011#5, 0b10111#5, 0b11011#5, 0b11111#5],
      ((withCpsr 0xFFFFFF14#32).slots.slot 16).extractLsb' 0 5 ≠ b := by decide

theorem witness_PhysicalSlotIsTheRedirectionTable :
    ((0 : LogicalIndex) ≤ 7 ∧ (7 : LogicalIndex) ≤ 7) ∧
    ((8 : LogicalIndex) ≤ 8 ∧ (8 : LogicalIndex) ≤ 12 ∧ (8 : LogicalIndex) ≤ 12 ∧ (12 : LogicalIndex) ≤ 12) ∧
    State.reset.slots.mode? = some .user ∧ (0#5).toNat < 17 ∧ (16#5).toNat < 17 := by decide

theorem witness_RedirectionReachesEachBankInItsOwnMode :
    (physicalSlot 8 .fiq = 17 ∧ physicalSlot 14 .fiq = 23) ∧
    (physicalSlot 13 .svc = 25 ∧ physicalSlot 14 .abt = 28 + 1 ∧ physicalSlot 13 .irq = 31 ∧
      physicalSlot 14 .und = 34 + 1) ∧
    ((8 : Slot) ≤ 8 ∧ (8 : Slot) ≤ 12 ∧ (8 : Slot) ≤ 12 ∧ (12 : Slot) ≤ 12) := by decide

theorem witness_ReadReturnsTheRedirectedSlot :
    (State.reset.Live ∧ State.reset.InMode .user ∧ (0#5).toNat < 17) ∧
    ((withCpsr 0x1F#32).Live ∧ (withCpsr 0x1F#32).InMode .system ∧ (16#5).toNat < 17) ∧
    (State.reset.Live ∧ 16 < (17#5).toNat ∧ 16 < (31#5).toNat) ∧
    ((withCpsr 0#32).Live ∧ (0#5).toNat ≤ 16 ∧ (16#5).toNat ≤ 16 ∧ (withCpsr 0#32).ModeInvalid) := by decide

theorem witness_WriteStoresInTheRedirectedSlot :
    ((withCpsr 0x11#32).Live ∧ (withCpsr 0x11#32).InMode .fiq ∧ (8#5).toNat < 17 ∧ (16#5).toNat < 17) ∧
    (State.reset.Live ∧ 16 < (17#5).toNat ∧ 16 < (31#5).toNat) ∧
    ((withCpsr 0x1E#32).Live ∧ (16#5).toNat ≤ 16 ∧ (withCpsr 0x1E#32).ModeInvalid) := by decide

theorem witness_WriteThenReadReturnsTheValue :
    ((withCpsr 0x13#32).Live ∧ (withCpsr 0x13#32).InMode .svc ∧ (13#5).toNat ≤ 16 ∧ (13#5).toNat ≠ 16) ∧
    ((16#5).toNat ≤ 16 ∧ (0x20000013#32).extractLsb' 0 5 = ProcessorMode.svc.code) := by decide

theorem witness_LowRegistersAreNeverBanked :
    State.reset.Live ∧ State.reset.InMode .user ∧ (0#5).toNat ≤ 7 ∧ (7#5).toNat ≤ 7 := by decide

theorem witness_HighRegistersAreBankedForFiqOnly :
    State.reset.Live ∧ State.reset.InMode .user ∧ (8 ≤ (8#5).toNat ∧ (8#5).toNat ≤ 12) ∧
    (8 ≤ (12#5).toNat ∧ (12#5).toNat ≤ 12) ∧ (21 : Slot).val = (12#5).toNat + 9 ∧
    (8 : Slot).val = (8#5).toNat := by decide

theorem witness_StackAndLinkAreBankedPerMode :
    (withCpsr 0x12#32).Live ∧ (withCpsr 0x12#32).InMode .irq ∧ (35 : Slot).val = 34 + ((14#5).toNat - 13) ∧
    (13 : Slot).val = 13 + ((13#5).toNat - 13) := by decide

theorem witness_ExportReturnsTheWholeStore : (withCpsr 0#32).Live := by decide

theorem witness_ImportReplacesTheWholeStore :
    (State.reset.Live ∧ (List.replicate 37 (7#32)).length = 37) ∧
    ((List.replicate 36 (7#32)).length ≠ 37 ∧ (List.replicate 38 (7#32)).length ≠ 37) ∧
    exec .exportStore State.reset =
      .next { State.reset with response := .snapshot State.reset.slots } ∧ stopped.faulted = true :=
  ⟨by decide, by decide, rfl, rfl⟩

theorem witness_LabelNamesTheRedirectedRegister :
    ((withCpsr 0x11#32).Live ∧ (withCpsr 0x11#32).InMode .fiq ∧ (0#5).toNat < 17 ∧ (16#5).toNat < 17 ∧
      ("CPSR" : String) ∈ (["r0", "r1", "r2", "r3", "r4", "r5", "r6", "r7", "r8", "r9", "r10", "r11", "r12",
        "SP", "LR", "PC", "CPSR"] : List String)[(16#5).toNat]?) ∧
    (State.reset.Live ∧ 16 < (17#5).toNat) ∧
    ((withCpsr 0#32).Live ∧ (0#5).toNat ≤ 16 ∧ (withCpsr 0#32).ModeInvalid) := by decide

theorem witness_GetModeReturnsTheDecodedMode :
    ((withCpsr 0xFFFFFFFB#32).Live ∧
      ((withCpsr 0xFFFFFFFB#32).slots.slot 16).extractLsb' 0 5 = ProcessorMode.und.code) ∧
    ((withCpsr 0x1E#32).Live ∧ (withCpsr 0x1E#32).ModeInvalid ∧
      ∀ m ∈ [ProcessorMode.user, .fiq, .irq, .svc, .abt, .und, .system],
        ((withCpsr 0x1E#32).slots.slot 16).extractLsb' 0 5 ≠ m.code) := by decide

theorem witness_SetModeSavesTheStatusAndSwitches :
    ((withCpsr 0xF00000FF#32).Live ∧ (withCpsr 0xF00000FF#32).InMode .system) ∧
    ((withCpsr 0x12345678#32).Live ∧ (withCpsr 0x12345678#32).ModeInvalid) := by decide

theorem witness_ReentryOverwritesTheSavedStatus :
    (withCpsr 0x13#32).Live ∧ (withCpsr 0x13#32).InMode .svc := by decide

theorem witness_SavedStatusIsRestoredByExportAndRawWrite :
    (withCpsr 0x40000010#32).Live ∧ (withCpsr 0x40000010#32).InMode .user := by decide

theorem witness_ModeRoundTripKeepsEveryRegister :
    (withCpsr 0x1F#32).Live ∧ (withCpsr 0x1F#32).InMode .system ∧ (16#5).toNat ≤ 16 := by decide

theorem witness_GettersReadTheirBitOfTheStatus :
    ((withCpsr 0x80000010#32).Live ∧ (withCpsr 0x80000010#32).InMode .user) ∧
    ((withCpsr 0x80000000#32).Live ∧ (withCpsr 0x80000000#32).ModeInvalid) := by decide

theorem witness_SettersWriteTheirBitOnly :
    ((withCpsr 0xF00000FF#32).Live ∧ (withCpsr 0xF00000FF#32).InMode .system) ∧
    ((withCpsr 0x80000000#32).Live ∧ (withCpsr 0x80000000#32).ModeInvalid) := by decide

theorem witness_FaultedInstanceStopsAllButReset :
    ((withCpsr 0#32).Live ∧ exec (.read 0#5) (withCpsr 0#32) =
      .next { withCpsr 0#32 with faulted := true, response := .error (.invalidMode 0#5) }) ∧
    (stopped.faulted = true ∧ Instr.exportStore ≠ .reset) := ⟨⟨by decide, rfl⟩, by decide⟩

theorem witness_InvalidModeIsRaisedByEveryDecodingOperation :
    ((withCpsr 0#32).Live ∧ (withCpsr 0#32).ModeInvalid ∧ decodesMode (.label 16#5) = true ∧
      operandInRange (.label 16#5) = true) ∧
    (decodesMode .exportStore = false ∧ exec .exportStore (withCpsr 0#32) =
      .next { withCpsr 0#32 with response := .snapshot (withCpsr 0#32).slots }) :=
  ⟨by decide, by decide, rfl⟩

theorem witness_NonFatalErrorLeavesTheState :
    exec (.read 17#5) State.reset = .next { State.reset with response := .error (.outOfRange 17#5) } ∧
    ∀ b, BlockError.outOfRange 17#5 ≠ .invalidMode b := ⟨rfl, by simp⟩

theorem witness_InvalidModeIsFatalAndWritesNothing :
    exec .getMode (withCpsr 0#32) =
      .next { withCpsr 0#32 with faulted := true, response := .error (.invalidMode 0#5) } ∧
    Instr.importStore [] ≠ .reset ∧
    (State.reset.InMode .user ∧ exec (.write 15#5 0#32) State.reset = .next State.reset ∧
      (∀ v, Instr.write 15#5 0#32 ≠ .write 16#5 v) ∧ ∀ w, Instr.write 15#5 0#32 ≠ .importStore w) :=
  ⟨rfl, by decide, by decide, rfl, by simp, by simp⟩

theorem witness_ErrorsHaveTheStatedPriority :
    decode (.command 0xB00#12 .none) = .error (.reservedOperation 0b1011#4) ∧
    ((withCpsr 0#32).Live ∧ (withCpsr 0#32).ModeInvalid ∧ 16 < (17#5).toNat ∧ 16 < (31#5).toNat) ∧
    exec (.importStore []) State.reset =
      .next { State.reset with response := .error (.snapshotSizeMismatch 0) } ∧
    exec .getT (withCpsr 0#32) =
      .next { withCpsr 0#32 with faulted := true, response := .error (.invalidMode 0#5) } ∧
    StatusBit.getter .t = .getT ∧
    exec (.classify 0#16) State.reset =
      .next { State.reset with response := .format .moveShiftedRegister } :=
  ⟨rfl, by decide, rfl, rfl, rfl, rfl⟩

theorem witness_EveryOperationIsAllowedInEveryMode :
    State.reset.Live ∧ State.reset.InMode .user ∧ operandInRange (.setMode .svc) = true ∧
    operandInRange (.write 16#5 0x13#32) = true ∧ operandInRange (.importStore (List.replicate 37 0#32)) = true := by
  decide

theorem witness_ReadTypeOperationsChangeNoSlot :
    mayWrite (.read 0#5) = false ∧ exec (.read 0#5) State.reset =
      .next { State.reset with response := .word 0#32 } := ⟨by decide, rfl⟩

theorem witness_WritingOperationsChangeOnlyTheirSlots :
    (after (exec (.write 0#5 1#32) State.reset)).isSome = true ∧
    (∀ m, State.reset.InMode m → (1 : Slot) ≠ physicalSlot ⟨(0#5).toNat, by decide⟩ m) ∧
    ((after (exec (.setMode .svc) State.reset)).isSome = true ∧ (25 : Slot) ≠ 16 ∧
      (ProcessorMode.svc, (25 : Slot)) ∉
        [(ProcessorMode.fiq, (24 : Slot)), (.svc, 27), (.abt, 30), (.irq, 33), (.und, 36)]) ∧
    ((after (exec (.setN true) State.reset)).isSome = true ∧ (0 : Slot) ≠ 16) :=
  ⟨by decide, by intro m; cases m <;> decide, by decide, by decide⟩

theorem witness_StatusBitsChangeOnlyByTheirWriters :
    (after (exec (.setT true) State.reset)).isSome = true ∧ 5 ≤ 31 ∧
    (∀ v, Instr.setT true ≠ .write 16#5 v) ∧ (∀ w, Instr.setT true ≠ .importStore w) ∧
    Instr.setT true ≠ .reset ∧
    ∀ p ∈ [(5, Instr.setT), (6, .setF), (7, .setI), (28, .setV), (29, .setC), (30, .setZ), (31, .setN)],
      p.1 = 31 → ∀ v, Instr.setT true ≠ p.2 v := by
  refine ⟨by decide, by decide, by simp, by simp, by decide, ?_⟩
  simp

theorem witness_ModeChangesOnlyByFourOperations :
    ((after (exec (.setN true) State.reset)).isSome = true ∧ (∀ u, Instr.setN true ≠ .setMode u) ∧
      (∀ v, Instr.setN true ≠ .write 16#5 v) ∧ (∀ w, Instr.setN true ≠ .importStore w) ∧
      Instr.setN true ≠ .reset) ∧
    State.reset.Live ∧ State.reset.InMode .user ∧ (List.replicate 37 (0x11#32)).length = 37 :=
  ⟨⟨by decide, by simp, by simp, by simp, by decide⟩, by decide, by decide, by decide⟩

theorem witness_ModeChangeTakesEffectAtTheNextAccess :
    (State.reset.Live ∧ State.reset.InMode .user ∧ (15#5).toNat < 16) ∧
    (0x11#32).extractLsb' 0 5 = ProcessorMode.fiq.code ∧
    ((List.replicate 37 (0x11#32)).length = 37 ∧ (16#5).toNat < 17 ∧
      ((List.replicate 37 (0x11#32))[16]).extractLsb' 0 5 = ProcessorMode.fiq.code) := by decide

theorem witness_SavedStatusChangesOnlyByEntryImportAndReset :
    (after (exec (.setMode .irq) State.reset)).isSome = true ∧ State.reset.InMode .user ∧
    (∀ w, Instr.setMode .irq ≠ .importStore w) ∧ Instr.setMode .irq ≠ .reset ∧
    Instr.setMode .irq ≠ .setMode .fiq :=
  ⟨by decide, by decide, by simp, by decide, by decide⟩

theorem witness_SavedStatusReachesNoAnswerButExport :
    Instr.getMode ≠ .exportStore ∧ (after (exec .getMode State.reset)).isSome = true ∧
    (∀ k : Slot, isSpsrSlot k = false →
      State.reset.slots.slot k = (State.reset.slots.setSlot 27 5#32).slot k) ∧
    State.reset.slots ≠ State.reset.slots.setSlot 27 5#32 := by decide

theorem witness_MaskTestRequiresOnesOnly :
    containsMask 0xDFFF#16 0xDF00#16 = true ∧ containsMask 0xDEFF#16 0xDF00#16 = false := by decide

theorem witness_ClassifyReturnsTheFirstContainedMask :
    (State.reset.Live ∧ classifyWith formatTable 0xD0FE#16 = some .conditionalBranch) ∧
    classifyWith { mask := formatMask, order := [.longBranchWithLink] } 0xD0FE#16 = none := by decide

theorem witness_ClassifyIsTotalWithTheTabulatedCounts :
    State.reset.Live ∧ (after (exec (.classify 0xFFFF#16) State.reset)).isSome = true := by decide

theorem witness_ClassifyAgreesWithTheReferencePatterns :
    (0x17FF#16 &&& (referencePattern .moveShiftedRegister).1 = (referencePattern .moveShiftedRegister).2 ∧
      (0x17FF#16).extractLsb' 11 2 ≠ 0b11#2) ∧
    (0xDEFF#16 &&& (referencePattern .conditionalBranch).1 = (referencePattern .conditionalBranch).2 ∧
      (0xDEFF#16).extractLsb' 8 4 ≠ 0b1111#4) := by decide

theorem witness_ClassifyIsIndependentOfTheRegisterFile :
    State.reset.Live ∧ (withCpsr 0#32).Live ∧ (format? (.softwareInterrupt 5#8)).isSome = true := by decide

theorem witness_ThumbInstructionsAnswerTheirFormat :
    format? (.conditionalBranch 0b1110#4 0xFF#8) = some .conditionalBranch ∧
    (Instr.conditionalBranch 0b1110#4 0xFF#8).wf = true ∧ (withCpsr 0#32).Live := by decide

theorem witness_ExcludedOperandValuesAnswerTheOtherFormat : (withCpsr 0#32).Live := by decide

theorem witness_DecodeOfEncodeIsTheInstruction :
    (Instr.moveShiftedRegister 0b10#2 31#5 7#3 7#3).wf = true ∧
    (Instr.conditionalBranch 0b1110#4 0xFF#8).wf = true := by decide

theorem witness_EncodeOfDecodeIsTheRequest :
    decode (.thumb 0xB3FF#16) = .ok (.addOffsetToStackPointer false 0b11#2 true 0x7F#7) := rfl

theorem witness_MalformedCommandsAreRefused :
    (0xB00 ≤ (0xB00#12).toNat ∧ 0xB00 ≤ (0xFFF#12).toNat) ∧
    (∀ t ∈ [ProcessorMode.user, .fiq, .irq, .svc, .abt, .und, .system], 0b11110#5 ≠ t.code) ∧
    (4#5 ∉ [5#5, 6#5, 7#5, 28#5, 29#5, 30#5, 31#5] ∧ 8#5 ∉ [5#5, 6#5, 7#5, 28#5, 29#5, 30#5, 31#5] ∧
      27#5 ∉ [5#5, 6#5, 7#5, 28#5, 29#5, 30#5, 31#5]) ∧
    ((0x020#12).toNat / 256 = 0 ∧ 2 ^ 5 ≤ (0x020#12).toNat % 256) ∧
    ((0x840#12).toNat / 256 = 8 ∧ 2 ^ 6 ≤ (0x840#12).toNat % 256) ∧
    ((0xA01#12).toNat / 256 = 10 ∧ 2 ^ 0 ≤ (0xA01#12).toNat % 256) ∧
    (0xB100 ≤ (0xB100#16).toNat ∧ (0xB100#16).toNat ≤ 0xB3FF ∧ 0xB100 ≤ (0xB3FF#16).toNat ∧
      (0xB3FF#16).toNat ≤ 0xB3FF) := by decide

theorem witness_StepRunsTheDecodedInstruction :
    (State.reset.withFetchWord 16 0x4770).pending = [.thumb 0x4770#16] ∧
    decode (.thumb 0x4770#16) = .ok (.hiRegisterOperationsBranchExchange .bx false true 6#3 0#3) ∧
    decode (.command 0xB00#12 .none) = .error (.reservedOperation 0b1011#4) ∧
    State.reset.pending = [] := ⟨by decide, rfl, rfl, rfl⟩

theorem witness_StepTakesExactlyTheOldestRequest :
    (after (step (State.reset.withFetchWord 16 0x0613))).map (·.pending) = some [] := by decide

theorem witness_EveryStepKeepsTheLatchInvariant :
    State.reset.LatchInv ∧ stopped.faulted = true ∧
    (after (step ((withCpsr 0#32).withFetchWord 16 0x0500))).map (fun t => (t.faulted, t.response)) =
      some (true, .error (.invalidMode 0#5)) := by
  refine ⟨?_, by decide, by decide⟩
  simp [State.LatchInv, State.reset]

end Sys2Proof.Tests
end

section
/-! PROOFS. What one step does, one equation per case of the queue and of the decoder (R7, R11). -/

namespace Sys2Proof.Machine

open Sys2Proof

theorem step_of_no_pending {s : State} (hp : s.pending = []) : step s = .next s := by
  simp only [step, hp]

theorem step_of_decode_ok {s : State} {r : Request} {rest : List Request} {i : Instr}
    (hp : s.pending = r :: rest) (hd : decode r = .ok i) :
    step s = exec i { s with pending := rest } := by
  simp only [step, hp, hd]

theorem step_of_decode_error {s : State} {r : Request} {rest : List Request} {e : DecodeError}
    (hp : s.pending = r :: rest) (hd : decode r = .error e) :
    step s = .refused (.undecodable e) := by
  simp only [step, hp, hd]

/-- Settles O50: its clauses are the three cases of a step, a request that decodes, one that does not,
and no request at all. -/
theorem stepRunsTheDecodedInstruction : Obligations.StepRunsTheDecodedInstruction :=
  ⟨fun _ _ _ _ hp hd => step_of_decode_ok hp hd,
    fun _ _ _ _ hp hd => step_of_decode_error hp hd,
    fun _ hp => step_of_no_pending hp⟩

end Sys2Proof.Machine
end

section
/-! PROOFS. The latch of the fatal error (R31, R125): how every instruction and every step leaves it, and the
reset state (R33). -/

namespace Sys2Proof.Machine

open Sys2Proof

/-! ## The latch invariant -/

/-- Everything a step that goes on can have done: nothing, or the oldest request's instruction. -/
theorem step_next {s t : State} (h : step s = .next t) :
    (s.pending = [] ∧ t = s) ∨
    ∃ r rest i, s.pending = r :: rest ∧ decode r = .ok i ∧ exec i { s with pending := rest } = .next t := by
  cases hp : s.pending with
  | nil =>
    rw [step_of_no_pending hp] at h
    cases h
    exact .inl ⟨rfl, rfl⟩
  | cons r rest =>
    cases hd : decode r with
    | error e =>
      rw [step_of_decode_error hp hd] at h
      cases h
    | ok i => exact .inr ⟨r, rest, i, rfl, hd, step_of_decode_ok hp hd ▸ h⟩

/-- A state whose latch is 0 and whose last answer is no error meets the latch invariant. -/
theorem State.latchInv_of_no_error {s : State} (hs : s.Live) (hr : ∀ e, s.response ≠ .error e) :
    s.LatchInv :=
  ⟨⟨fun hf => absurd hf (by simp [hs]), fun ⟨b, hb⟩ => absurd hb (hr _)⟩, fun b hb => absurd hb (hr _)⟩

/-- Raising an error sets the latch exactly when the error is `InvalidMode`. -/
theorem State.latchInv_raise {s : State} (hs : s.Live) {e : BlockError} (he : e.IsOf s.slots) :
    (s.raise e).LatchInv := by
  refine ⟨?_, fun b hb => he b (Response.error.inj hb)⟩
  rw [State.raise_faulted, State.raise_response, hs, Bool.false_or, BlockError.fatal_iff]
  simp only [Response.error.injEq]

/-- Whatever the state before, the state an instruction leaves meets the latch invariant. -/
theorem exec_latchInv {i : Instr} {s t : State} (h : exec i s = .next t) : t.LatchInv := by
  obtain ⟨-, rfl⟩ | ⟨hs, ⟨e, he, rfl⟩ | ⟨r, hr, rfl⟩ | ⟨k, v, m, hk, -, -, rfl⟩ | ⟨w, hw, -, rfl⟩ |
    ⟨u, m, -, -, rfl⟩ | ⟨b, v, m, -, -, rfl⟩⟩ := exec_next h
  · exact State.latchInv_of_no_error rfl nofun
  · exact State.latchInv_raise hs he
  · exact State.latchInv_of_no_error hs hr
  all_goals exact State.latchInv_of_no_error hs nofun

/-- Settles O53: an idle step leaves the state, and any other leaves what its instruction leaves. -/
theorem everyStepKeepsTheLatchInvariant : Obligations.EveryStepKeepsTheLatchInvariant := by
  intro s t hinv h
  obtain ⟨-, rfl⟩ | ⟨r, rest, i, -, -, hi⟩ := step_next h
  · exact hinv
  · exact exec_latchInv hi

/-- Settles O52: nothing has been answered at reset. -/
theorem latchInvariantHoldsAtReset : Obligations.LatchInvariantHoldsAtReset :=
  State.latchInv_of_no_error rfl nofun

/-- Settles O22: the latch is set exactly by `InvalidMode` since every instruction leaves the latch
invariant. -/
theorem faultedInstanceStopsAllButReset : Obligations.FaultedInstanceStopsAllButReset :=
  ⟨rfl, fun _ _ _ _ h => (exec_latchInv h).1, fun _ _ hs hi => exec_faulted hs hi,
    fun _ => ⟨_, rfl, rfl⟩⟩

/-! ## Reset and the mode -/

/-- Settles O1: the store slot by slot, and the User code in its CPSR. -/
theorem resetStateIsUserModeAndZero : Obligations.ResetStateIsUserModeAndZero :=
  ⟨Store.slot_reset, by decide, rfl⟩

/-- Settles O3: the list holds every mode with its code, so a value that is in no row is no mode's code. -/
theorem modeDecodesExactlyTheSevenCodes : Obligations.ModeDecodesExactlyTheSevenCodes := by
  intro P codes b
  have code_of : ∀ p ∈ codes, p.2 = p.1.code := by decide
  have mem : ∀ m : ProcessorMode, (m, m.code) ∈ codes := by intro m; cases m <;> decide
  refine ⟨fun p hp hb => ?_, fun hb => ?_, rfl⟩
  · exact Store.mode_ok (Store.mode?_eq_some.mpr (hb.trans (code_of p hp)))
  · exact Store.mode_error (ProcessorMode.ofCode_eq_none.mpr fun m => hb _ (mem m))

end Sys2Proof.Machine
end

section
/-! PROOFS. The redirection (R20, R22) and what banking makes of a write, a mode entry and a read in a row
(R23 to R25). -/

namespace Sys2Proof.Machine

open Sys2Proof

/-! ## The redirection, case by case -/

theorem physicalSlot_val_unbanked {i : LogicalIndex} (m : ProcessorMode)
    (h : i.val ≤ 7 ∨ i.val = 15 ∨ i.val = 16) : (physicalSlot i m).val = i.val := by
  rw [physicalSlot, dif_pos h]

theorem physicalSlot_val_high {i : LogicalIndex} (m : ProcessorMode) (h : 8 ≤ i.val) (h' : i.val ≤ 12) :
    (physicalSlot i m).val = if m = .fiq then i.val + 9 else i.val := by
  rw [physicalSlot, dif_neg (by omega), if_pos h', apply_ite Fin.val]

theorem physicalSlot_val_stackLink {i : LogicalIndex} (m : ProcessorMode) (h : i.val = 13 ∨ i.val = 14) :
    (physicalSlot i m).val = i.val + bankOffset m := by
  rw [physicalSlot, dif_neg (by omega), if_neg (by omega)]

theorem physicalSlot_toNat_ne_cpsr {i : IndexOperand} (h : i.toNat < 17) (hi : i.toNat ≠ 16)
    (m : ProcessorMode) : physicalSlot ⟨i.toNat, h⟩ m ≠ cpsrSlot :=
  physicalSlot_ne_cpsr (fun e => hi (congrArg Fin.val e)) m

theorem physicalSlot_injective (m : ProcessorMode) : Function.Injective (physicalSlot · m) := by
  cases m <;> decide

theorem Store.mode_eq_ok {P : Store} {m : ProcessorMode} : P.mode = .ok m ↔ P.mode? = some m := by
  refine ⟨fun h => ?_, Store.mode_ok⟩
  cases hm : P.mode? with
  | none => simp [Store.mode_error hm] at h
  | some m' => rw [Store.mode_ok hm] at h; cases h; rfl

/-- Settles O4: the three cases of the redirection, and the two accesses that go through it. -/
theorem physicalSlotIsTheRedirectionTable : Obligations.PhysicalSlotIsTheRedirectionTable :=
  ⟨fun _ m h => physicalSlot_val_unbanked m (h.imp id (Or.imp (congrArg Fin.val) (congrArg Fin.val))),
    fun _ m h h' => physicalSlot_val_high m h h', by decide,
    fun _ _ v _ h hm => ⟨Store.readLogical_ok h (Store.mode_eq_ok.mp hm),
      Store.writeLogical_ok h (Store.mode_eq_ok.mp hm) v⟩⟩

/-- Settles O5: in each mode the redirection is a table of 17 slots, gone through for each bank. -/
theorem redirectionReachesEachBankInItsOwnMode : Obligations.RedirectionReachesEachBankInItsOwnMode := by
  refine ⟨fun i m => ?_, fun i m => ?_, fun p hp i m => ?_, fun k m => ?_, fun k m => ?_,
    fun i j m h => physicalSlot_injective m h⟩
  · simpa [isSpsrSlot, and_assoc] using physicalSlot_not_spsr i m
  · cases m <;> revert i <;> decide
  · revert p
    cases m <;> revert i <;> decide
  · cases m <;> revert k <;> decide
  · cases m <;> revert k <;> decide

/-! ## What banking makes of a write in one mode and a read in another -/

/-- After a mode entry, READ returns what stood in the slot the new mode redirects the index to. The CPSR
is left out: mode entry writes it. -/
theorem exec_setMode_read {s : State} {i : IndexOperand} {m u : ProcessorMode} (hs : s.Live)
    (hm : s.InMode m) (h : i.toNat < 17) (hi : i.toNat ≠ 16) :
    ∃ t r, exec (.setMode u) s = .next t ∧ exec (.read i) t = .next r ∧
      r.response = .word (s.slots.slot (physicalSlot ⟨i.toNat, h⟩ u)) := by
  have not_spsr : spsrSlot u ≠ some (physicalSlot ⟨i.toNat, h⟩ u) := fun e => by
    simpa [physicalSlot_not_spsr] using spsrSlot_isSpsr e
  refine ⟨_, _, exec_setMode_ok hs hm u, exec_read_ok (by exact hs) h (Store.mode?_entered _ u), ?_⟩
  rw [Store.slot_entered, if_neg (physicalSlot_toNat_ne_cpsr h hi u), if_neg not_spsr]

/-- A value written in one mode is read back in another exactly when both redirect the index to one slot;
otherwise the other mode's slot is read as it was. -/
theorem exec_write_setMode_read {s : State} {i : IndexOperand} {m m' : ProcessorMode} {k k' : Slot}
    (hs : s.Live) (hm : s.InMode m) (h : i.toNat < 17) (hi : i.toNat ≠ 16) (v : Word)
    (hk : physicalSlot ⟨i.toNat, h⟩ m = k) (hk' : physicalSlot ⟨i.toNat, h⟩ m' = k') :
    ∃ t u w, exec (.write i v) s = .next t ∧ exec (.setMode m') t = .next u ∧
      exec (.read i) u = .next w ∧ w.response = .word (if k' = k then v else s.slots.slot k') := by
  subst hk hk'
  obtain ⟨u, w, hu, hw, hr⟩ := exec_setMode_read (u := m')
    (s := { s with slots := s.slots.setSlot (physicalSlot ⟨i.toNat, h⟩ m) v, response := .none })
    hs ((Store.mode?_setSlot (physicalSlot_toNat_ne_cpsr h hi m) v).trans hm) h hi
  exact ⟨_, u, w, exec_write_ok hs h hm v, hu, hw, by rw [hr, Store.slot_setSlot]⟩

/-- Settles O9: r0 to r7 stand in one slot, their own, in every mode. -/
theorem lowRegistersAreNeverBanked : Obligations.LowRegistersAreNeverBanked := by
  intro s i v m m' hs hm hi
  have slot (n : ProcessorMode) : physicalSlot ⟨i.toNat, by omega⟩ n = ⟨i.toNat, by omega⟩ :=
    Fin.ext (physicalSlot_val_unbanked n (.inl hi))
  simpa only [if_true] using exec_write_setMode_read hs hm (by omega) (by omega) v (slot m) (slot m')

/-- Settles O10: r8 to r12 of two modes stand in one slot exactly when both are Fiq or neither is. -/
theorem highRegistersAreBankedForFiqOnly : Obligations.HighRegistersAreBankedForFiqOnly := by
  intro s i v m m' k hs hm h8 h12 hk
  have slot_m' : physicalSlot ⟨i.toNat, by omega⟩ m' = k :=
    Fin.ext ((physicalSlot_val_high m' h8 h12).trans hk.symm)
  have same : k = physicalSlot ⟨i.toNat, by omega⟩ m ↔ (m = .fiq ↔ m' = .fiq) := by
    rw [Fin.ext_iff, hk, physicalSlot_val_high m h8 h12]
    split <;> split <;> simp [*]
  simpa only [same] using exec_write_setMode_read hs hm (by omega) (by omega) v rfl slot_m'

/-- The banks of r13 and r14 are one per mode, User and System sharing one (R25). -/
theorem bankOffset_inj {m m' : ProcessorMode} : bankOffset m' = bankOffset m ↔
    m = m' ∨ (m = .user ∧ m' = .system) ∨ (m = .system ∧ m' = .user) := by
  cases m <;> cases m' <;> decide

/-- Settles O11: r13 and r14 of two modes stand in one slot exactly when the two bank offsets are equal. -/
theorem stackAndLinkAreBankedPerMode : Obligations.StackAndLinkAreBankedPerMode := by
  intro s i v m m' hs hm hi base hbase hmode k hk
  have hi : i.toNat = 13 ∨ i.toNat = 14 := hi.imp (congrArg BitVec.toNat) (congrArg BitVec.toNat)
  have base_eq : ∀ p ∈ [(ProcessorMode.user, 13), (.system, 13), (.fiq, 22), (.svc, 25), (.abt, 28),
      (.irq, 31), (.und, 34)], p.2 = 13 + bankOffset p.1 := by decide
  have hk : k.val = i.toNat + bankOffset m' := by
    rw [hk, base_eq base hbase, hmode]
    omega
  have slot_m' : physicalSlot ⟨i.toNat, by omega⟩ m' = k :=
    Fin.ext ((physicalSlot_val_stackLink m' hi).trans hk.symm)
  have same : k = physicalSlot ⟨i.toNat, by omega⟩ m ↔
      m = m' ∨ (m = .user ∧ m' = .system) ∨ (m = .system ∧ m' = .user) := by
    rw [Fin.ext_iff, hk, physicalSlot_val_stackLink m hi, Nat.add_left_cancel_iff, bankOffset_inj]
  simpa only [same] using exec_write_setMode_read hs hm (by omega) (by omega) v rfl slot_m'

end Sys2Proof.Machine
end

section
/-! PROOFS. Who writes the status register's upper bits (R30) and the SPSRs (R29), and that only EXPORT
reads an SPSR (R29, R130). -/

namespace Sys2Proof.Machine

open Sys2Proof

/-! ## The writers of the status register -/

theorem setter_mem_table (b : StatusBit) : (b.position, b.setter) ∈
    [(5, Instr.setT), (6, .setF), (7, .setI), (28, .setV), (29, .setC), (30, .setZ), (31, .setN)] := by
  cases b with
  | t => exact .head _
  | f => exact .tail _ (.head _)
  | i => exact .tail _ (.tail _ (.head _))
  | v => exact .tail _ (.tail _ (.tail _ (.head _)))
  | c => exact .tail _ (.tail _ (.tail _ (.tail _ (.head _))))
  | z => exact .tail _ (.tail _ (.tail _ (.tail _ (.tail _ (.head _)))))
  | n => exact .tail _ (.tail _ (.tail _ (.tail _ (.tail _ (.tail _ (.head _))))))

/-- Settles O30: beside the three operations left out, WRITE misses the CPSR, SETMODE keeps the bits from 5
up, and a setter keeps all bits but its own. -/
theorem statusBitsChangeOnlyByTheirWriters : Obligations.StatusBitsChangeOnlyByTheirWriters := by
  intro i s t n h hn hwrite himport hreset hset
  obtain ⟨rfl, -⟩ | ⟨-, ⟨e, -, rfl⟩ | ⟨r, -, rfl⟩ | ⟨k, v, m, hk, rfl, -, rfl⟩ | ⟨w, hw, rfl, -⟩ |
    ⟨u, m, rfl, -, rfl⟩ | ⟨b, v, m, rfl, -, rfl⟩⟩ := exec_next h
  · exact absurd rfl hreset
  · rfl
  · rfl
  · have hk16 : k.toNat ≠ 16 := fun e => hwrite v (congrArg (Instr.write · v) (BitVec.eq_of_toNat_eq e))
    exact congrArg (BitVec.getLsbD · n)
      (Store.slot_setSlot_other _ v (physicalSlot_toNat_ne_cpsr hk hk16 m).symm)
  · exact absurd rfl (himport w)
  · calc ((s.slots.entered u).cpsr).getLsbD n
      _ = (withMode s.slots.cpsr u).getLsbD n := by rw [Store.cpsr_entered]
      _ = s.slots.cpsr.getLsbD n := by rw [getLsbD_withMode, if_neg (by omega)]
  · have hb : n ≠ b.position := fun e => hset _ (setter_mem_table b) e.symm v rfl
    calc ((s.slots.setSlot cpsrSlot (withStatusBit s.slots.cpsr b v)).slot cpsrSlot).getLsbD n
      _ = (withStatusBit s.slots.cpsr b v).getLsbD n := by rw [Store.slot_setSlot_same]
      _ = s.slots.cpsr.getLsbD n := by rw [getLsbD_withStatusBit, if_neg hb]

/-! ## The writers of the saved status registers -/

/-- The table of R29. -/
theorem mem_spsrTable_iff (p : ProcessorMode × Slot) :
    p ∈ [(ProcessorMode.fiq, (24 : Slot)), (.svc, 27), (.abt, 30), (.irq, 33), (.und, 36)] ↔
      spsrSlot p.1 = some p.2 := by
  obtain ⟨m, k⟩ := p
  cases m <;> revert k <;> decide

theorem spsrSlot_inj {m u : ProcessorMode} {k : Slot} (hm : spsrSlot m = some k)
    (hu : spsrSlot u = some k) : u = m := by
  revert k
  cases m <;> cases u <;> decide

/-- An instruction that answers a next state is RESET or found the latch 0. -/
theorem exec_next_live {i : Instr} {s t : State} (h : exec i s = .next t) (hi : i ≠ .reset) : s.Live :=
  (exec_next h).elim (fun hr => absurd hr.1 hi) And.left

/-- Mode entry leaves every SPSR but the entered mode's. -/
theorem Store.slot_entered_spsr (P : Store) {m u : ProcessorMode} {k : Slot} (hk : spsrSlot m = some k)
    (hu : u ≠ m) : (P.entered u).slot k = P.slot k := by
  rw [Store.slot_entered, if_neg (spsrSlot_ne_cpsr hk), if_neg fun h => hu (spsrSlot_inj hk h)]

/-- Mode entry saves the CPSR in the entered mode's SPSR. -/
theorem Store.slot_entered_own_spsr (P : Store) {m : ProcessorMode} {k : Slot}
    (hk : spsrSlot m = some k) : (P.entered m).slot k = P.cpsr := by
  rw [Store.slot_entered, if_neg (spsrSlot_ne_cpsr hk), if_pos hk]

/-- No instruction but SETMODE of its own mode, IMPORT and RESET changes an SPSR. -/
theorem exec_keeps_spsr {i : Instr} {s t : State} {m : ProcessorMode} {k : Slot}
    (h : exec i s = .next t) (hk : spsrSlot m = some k) (himport : ∀ w, i ≠ .importStore w)
    (hreset : i ≠ .reset) (hset : i ≠ .setMode m) : t.slots.slot k = s.slots.slot k := by
  obtain ⟨rfl, -⟩ | ⟨-, ⟨e, -, rfl⟩ | ⟨r, -, rfl⟩ | ⟨j, v, n, hj, -, -, rfl⟩ | ⟨w, hw, rfl, -⟩ |
    ⟨u, n, rfl, -, rfl⟩ | ⟨b, v, n, -, -, rfl⟩⟩ := exec_next h
  · exact absurd rfl hreset
  · rfl
  · rfl
  · refine Store.slot_setSlot_other _ v fun e => ?_
    simpa [e, physicalSlot_not_spsr] using spsrSlot_isSpsr hk
  · exact absurd rfl (himport w)
  · exact Store.slot_entered_spsr _ hk fun e => hset (congrArg _ e)
  · exact Store.slot_setSlot_other _ _ (spsrSlot_ne_cpsr hk)

/-- Settles O33: the table holds each SPSR with its mode, and only the entry of that mode stores there. -/
theorem savedStatusChangesOnlyByEntryImportAndReset :
    Obligations.SavedStatusChangesOnlyByEntryImportAndReset := by
  intro i s t h himport hreset p hp
  have hk := (mem_spsrTable_iff p).mp hp
  refine ⟨exec_keeps_spsr h hk himport hreset, ?_⟩
  rintro rfl m hm
  rw [exec_setMode_ok (exec_next_live h hreset) hm] at h
  cases h
  exact Store.slot_entered_own_spsr _ hk

/-! ## The readers of the saved status registers -/

/-- The access checks raise an error or pass, the index in range and the mode valid. -/
theorem Store.access_error_or_mode (P : Store) (i : IndexOperand) :
    (∃ e, P.access i = .error e) ∨ ∃ (_ : i.toNat < 17) (m : ProcessorMode), P.mode? = some m := by
  obtain ⟨-, ha⟩ | ⟨-, -, ha⟩ | ⟨hi, m, hm, -⟩ := P.access_cases i
  · exact .inl ⟨_, ha⟩
  · exact .inl ⟨_, ha⟩
  · exact .inr ⟨hi, m, hm⟩

/-- Two stores that differ in nothing but their SPSR slots. -/
def Store.AgreesOffSpsr (P Q : Store) : Prop := ∀ k : Slot, isSpsrSlot k = false → P.slot k = Q.slot k

namespace Store.AgreesOffSpsr

variable {P Q : Store}

theorem cpsr (h : P.AgreesOffSpsr Q) : P.cpsr = Q.cpsr := h cpsrSlot (by decide)

theorem modeBits (h : P.AgreesOffSpsr Q) : P.modeBits = Q.modeBits := Store.modeBits_eq h.cpsr

theorem mode? (h : P.AgreesOffSpsr Q) : P.mode? = Q.mode? := congrArg ProcessorMode.ofCode h.modeBits

theorem mode (h : P.AgreesOffSpsr Q) : P.mode = Q.mode := by
  simp only [Store.mode, h.mode?, h.modeBits]

theorem access (h : P.AgreesOffSpsr Q) (i : IndexOperand) : P.access i = Q.access i := by
  simp only [Store.access, Store.accessMode_eq, h.mode]

theorem readLogical (h : P.AgreesOffSpsr Q) (i : IndexOperand) : P.readLogical i = Q.readLogical i := by
  obtain ⟨e, ha⟩ | ⟨hi, m, hm⟩ := P.access_error_or_mode i
  · rw [Store.readLogical_error ha, Store.readLogical_error ((h.access i).symm.trans ha)]
  · rw [Store.readLogical_ok hi hm, Store.readLogical_ok hi (h.mode?.symm.trans hm),
      h _ (physicalSlot_not_spsr _ m)]

theorem readStatus (h : P.AgreesOffSpsr Q) (b : StatusBit) : P.readStatus b = Q.readStatus b := by
  simp only [Store.readStatus, h.readLogical]

theorem setSlot (h : P.AgreesOffSpsr Q) (k : Slot) (v : Word) :
    (P.setSlot k v).AgreesOffSpsr (Q.setSlot k v) := fun j hj => by
  simp only [Store.slot_setSlot, h j hj]

theorem entered (h : P.AgreesOffSpsr Q) (u : ProcessorMode) :
    (P.entered u).AgreesOffSpsr (Q.entered u) := fun j hj => by
  simp only [Store.slot_entered, h.cpsr, h j hj]

end Store.AgreesOffSpsr

/-- Two attempts to write a store that cannot be told apart off the SPSR slots: the same error, or stores that
agree. -/
inductive WritesAgree : Except BlockError Store → Except BlockError Store → Prop where
  | ok {P Q : Store} (h : P.AgreesOffSpsr Q) : WritesAgree (.ok P) (.ok Q)
  | error (e : BlockError) : WritesAgree (.error e) (.error e)

theorem WritesAgree.refl (x : Except BlockError Store) : WritesAgree x x := by
  cases x with
  | ok P => exact .ok fun _ _ => rfl
  | error e => exact .error e

theorem Store.AgreesOffSpsr.writeLogical {P Q : Store} (h : P.AgreesOffSpsr Q) (i : IndexOperand)
    (v : Word) : WritesAgree (P.writeLogical i v) (Q.writeLogical i v) := by
  obtain ⟨e, ha⟩ | ⟨hi, m, hm⟩ := P.access_error_or_mode i
  · rw [Store.writeLogical_error ha, Store.writeLogical_error ((h.access i).symm.trans ha)]
    exact .error e
  · rw [Store.writeLogical_ok hi hm, Store.writeLogical_ok hi (h.mode?.symm.trans hm)]
    exact .ok (h.setSlot _ v)

theorem Store.AgreesOffSpsr.writeStatus {P Q : Store} (h : P.AgreesOffSpsr Q) (b : StatusBit)
    (v : Bool) : WritesAgree (P.writeStatus b v) (Q.writeStatus b v) := by
  cases hm : P.mode? with
  | none =>
    rw [Store.writeStatus_error hm, Store.writeStatus_error (h.mode?.symm.trans hm), h.modeBits]
    exact .error _
  | some m =>
    rw [Store.writeStatus_ok hm, Store.writeStatus_ok (h.mode?.symm.trans hm), h.cpsr]
    exact .ok (h.setSlot _ _)

theorem Store.AgreesOffSpsr.enterMode {P Q : Store} (h : P.AgreesOffSpsr Q) (u : ProcessorMode) :
    WritesAgree (P.enterMode u) (Q.enterMode u) := by
  cases hm : P.mode? with
  | none =>
    rw [Store.enterMode_error hm, Store.enterMode_error (h.mode?.symm.trans hm), h.modeBits]
    exact .error _
  | some m =>
    rw [Store.enterMode_ok hm, Store.enterMode_ok (h.mode?.symm.trans hm)]
    exact .ok (h.entered u)

/-- Two states that differ in nothing but their SPSR slots and their last answers. -/
structure State.AgreesOffSpsr (s s' : State) : Prop where
  faulted : s.faulted = s'.faulted
  pending : s.pending = s'.pending
  slots : s.slots.AgreesOffSpsr s'.slots

/-- The outcome goes on with the answer of `t`, to a state that agrees with `t` off the SPSR slots. -/
def OutcomeAgrees (t : State) (o : Host.Outcome State Fault Refusal) : Prop :=
  ∃ t', o = .next t' ∧ t.response = t'.response ∧ t.AgreesOffSpsr t'

section
variable {s s' t : State} (hss : s.AgreesOffSpsr s')
include hss

theorem State.AgreesOffSpsr.raise (e : BlockError) : (s.raise e).AgreesOffSpsr (s'.raise e) :=
  ⟨by simp only [State.raise_faulted, hss.faulted], hss.pending, hss.slots⟩

/-- A read-type operation whose body reads the same from both stores. -/
theorem query_agrees {body : Store → Except BlockError Response}
    (hbody : body s.slots = body s'.slots) (h : query s body = .next t) :
    OutcomeAgrees t (query s' body) := by
  obtain ⟨hs, ⟨r, hb, rfl⟩ | ⟨e, hb, rfl⟩⟩ := query_next h
  · exact ⟨_, query_ok (hss.faulted.symm.trans hs) (hbody.symm.trans hb), rfl,
      hss.faulted, hss.pending, hss.slots⟩
  · exact ⟨_, query_error (hss.faulted.symm.trans hs) (hbody.symm.trans hb), rfl, hss.raise e⟩

/-- A write-type operation whose body writes the same to both stores. -/
theorem update_agrees {body : Store → Except BlockError Store}
    (hbody : WritesAgree (body s.slots) (body s'.slots)) (h : update s body = .next t) :
    OutcomeAgrees t (update s' body) := by
  have hs := (update_next h).1
  generalize hx : body s.slots = x, hy : body s'.slots = y at hbody
  cases hbody with
  | ok hPQ =>
    rw [update_ok hs hx] at h
    cases h
    exact ⟨_, update_ok (hss.faulted.symm.trans hs) hy, rfl, hss.faulted, hss.pending, hPQ⟩
  | error e =>
    rw [update_error hs hx] at h
    cases h
    exact ⟨_, update_error (hss.faulted.symm.trans hs) hy, rfl, hss.raise e⟩

/-- Every instruction but EXPORT takes two states that agree off the SPSR slots to one answer and to states
that agree again. -/
theorem exec_agrees {i : Instr} (hi : i ≠ .exportStore) (h : exec i s = .next t) :
    OutcomeAgrees t (exec i s') := by
  -- the kinds of instruction that share a meaning
  have thumb : ∀ w, exec i = classifyWord w → OutcomeAgrees t (exec i s') := fun w hw => by
    rw [hw] at h ⊢
    exact query_agrees hss rfl h
  have getter : ∀ b, exec i = getStatus b → OutcomeAgrees t (exec i s') := fun b hb => by
    rw [hb] at h ⊢
    exact query_agrees hss (by simp only [hss.slots.readStatus]) h
  have setter : ∀ b v, exec i = setStatus b v → OutcomeAgrees t (exec i s') := fun b v hb => by
    rw [hb] at h ⊢
    exact update_agrees hss (hss.slots.writeStatus b v) h
  cases i with
  | exportStore => exact absurd rfl hi
  | reset =>
    cases h
    exact ⟨_, rfl, rfl, rfl, hss.pending, fun _ _ => rfl⟩
  | read k => exact query_agrees hss (by simp only [hss.slots.readLogical]) (show execRead k s = _ from h)
  | write k v => exact update_agrees hss (hss.slots.writeLogical k v) (show execWrite k v s = _ from h)
  | importStore w => exact update_agrees hss (.refl _) (show execImportStore w s = _ from h)
  | label k => exact query_agrees hss (by simp only [hss.slots.access]) (show execLabel k s = _ from h)
  | getMode => exact query_agrees hss (by simp only [hss.slots.mode]) (show execGetMode s = _ from h)
  | setMode u => exact update_agrees hss (hss.slots.enterMode u) (show execSetMode u s = _ from h)
  | getT => exact getter .t rfl
  | getF => exact getter .f rfl
  | getI => exact getter .i rfl
  | getV => exact getter .v rfl
  | getC => exact getter .c rfl
  | getZ => exact getter .z rfl
  | getN => exact getter .n rfl
  | setT v => exact setter .t v rfl
  | setF v => exact setter .f v rfl
  | setI v => exact setter .i v rfl
  | setV v => exact setter .v v rfl
  | setC v => exact setter .c v rfl
  | setZ v => exact setter .z v rfl
  | setN v => exact setter .n v rfl
  | classify w => exact thumb w rfl
  | _ => exact thumb _ rfl

end

/-- Settles O34: no other instruction tells two states apart that differ in their SPSR slots only. -/
theorem savedStatusReachesNoAnswerButExport : Obligations.SavedStatusReachesNoAnswerButExport := by
  intro i s s' t hi hfaulted hpending hslots h
  obtain ⟨t', h', hresponse, ht⟩ := exec_agrees (s' := s') ⟨hfaulted, hpending, hslots⟩ hi h
  exact ⟨t', h', hresponse, ht.faulted, ht.pending, ht.slots⟩

end Sys2Proof.Machine
end

section
/-! PROOFS. The slots as a memory: a write is read back, a read changes no slot, and the requests are taken
one at a time (R40, R42). -/

namespace Sys2Proof.Machine

open Sys2Proof

/-! ## A write read back -/

/-- Writing a valid mode's code into the CPSR's mode field puts the store in that mode. -/
theorem Store.mode?_setSlot_cpsr (P : Store) {v : Word} {m : ProcessorMode} (hv : modeField v = m.code) :
    (P.setSlot cpsrSlot v).mode? = some m :=
  Store.mode?_eq_some.mpr ((congrArg modeField (Store.slot_setSlot_same P cpsrSlot v)).trans hv)

/-- A write through the redirection keeps the mode, if what it writes to the CPSR codes that mode. -/
theorem Store.mode?_setSlot_physicalSlot {P : Store} {i : IndexOperand} {v : Word} {m : ProcessorMode}
    (h : i.toNat < 17) (hm : P.mode? = some m) (hv : i.toNat = 16 → modeField v = m.code) :
    (P.setSlot (physicalSlot ⟨i.toNat, h⟩ m) v).mode? = some m := by
  by_cases hi : i.toNat = 16
  · have slot : physicalSlot ⟨i.toNat, h⟩ m = cpsrSlot :=
      (congrArg (physicalSlot · m) (Fin.ext hi)).trans (physicalSlot_cpsr m)
    rw [slot, P.mode?_setSlot_cpsr (hv hi)]
  · rw [Store.mode?_setSlot (physicalSlot_toNat_ne_cpsr h hi m), hm]

/-- Settles O8: the mode is kept, so the read is redirected to the slot that was written. -/
theorem writeThenReadReturnsTheValue : Obligations.WriteThenReadReturnsTheValue := by
  intro s i v m hs hm hi hv
  have h : i.toNat < 17 := by omega
  have mode_kept := Store.mode?_setSlot_physicalSlot h hm hv
  exact ⟨_, _, exec_write_ok hs h hm v, mode_kept, exec_read_ok (by exact hs) h mode_kept,
    congrArg Response.word (Store.slot_setSlot_same _ _ v)⟩

/-! ## The operations of read type -/

theorem mayWrite_setter (b : StatusBit) (v : Bool) : mayWrite (b.setter v) = true := by
  cases b <;> rfl

/-- Whichever way it answers, an operation of read type leaves the store. -/
theorem exec_slots_of_read_type {i : Instr} {s t : State} (hi : mayWrite i = false)
    (h : exec i s = .next t) : t.slots = s.slots := by
  obtain ⟨rfl, -⟩ | ⟨-, ⟨e, -, rfl⟩ | ⟨r, -, rfl⟩ | ⟨k, v, m, hk, rfl, -⟩ | ⟨w, hw, rfl, -⟩ |
    ⟨u, m, rfl, -⟩ | ⟨b, v, m, rfl, -⟩⟩ := exec_next h
  · cases hi
  · rfl
  · rfl
  · cases hi
  · cases hi
  · cases hi
  · rw [mayWrite_setter] at hi
    cases hi

/-- Settles O28: the store is left whole, so each slot of it is. -/
theorem readTypeOperationsChangeNoSlot : Obligations.ReadTypeOperationsChangeNoSlot :=
  fun _ _ _ hi h k => congrArg (Store.slot · k) (exec_slots_of_read_type hi h)

/-! ## The queue of requests -/

/-- No instruction touches the caller's other requests. -/
theorem exec_pending {i : Instr} {s t : State} (h : exec i s = .next t) : t.pending = s.pending := by
  obtain ⟨-, rfl⟩ | ⟨-, ⟨e, -, rfl⟩ | ⟨r, -, rfl⟩ | ⟨k, v, m, hk, -, -, rfl⟩ | ⟨w, hw, -, rfl⟩ |
    ⟨u, m, -, -, rfl⟩ | ⟨b, v, m, -, -, rfl⟩⟩ := exec_next h
  all_goals rfl

/-- Settles O51: an idle step finds an empty queue, and any other runs its instruction on the tail. -/
theorem stepTakesExactlyTheOldestRequest : Obligations.StepTakesExactlyTheOldestRequest := by
  intro s t h
  obtain ⟨hp, rfl⟩ | ⟨r, rest, i, hp, -, hi⟩ := step_next h
  · rw [hp, List.tail_nil]
  · rw [exec_pending hi, hp, List.tail_cons]

end Sys2Proof.Machine
end

section
/-! PROOFS. The classifier's masks (R50, R51, R53) and the words of another format that the two excluded
operand values make (R54, R69). -/

namespace Sys2Proof

/-- Settles O35: the conjunction with the mask is the mask exactly when no bit of the mask is lost. -/
theorem maskTestRequiresOnesOnly : Obligations.MaskTestRequiresOnesOnly := by
  intro w mask
  rw [containsMask, beq_iff_eq, BitVec.eq_of_getLsbD_eq_iff]
  simp only [BitVec.getLsbD_and, Bool.and_eq_right_iff_imp]

/-- Settles O36: the table has 19 rows, each compared with the 18 other masks. -/
theorem masksNestAsTabulated : Obligations.MasksNestAsTabulated := by
  unfold Obligations.MasksNestAsTabulated
  decide

theorem mem_formatOrder (f : InstructionFormat) : f ∈ formatOrder := by
  cases f <;> decide

/-- Settles O37: the order is one list of 19 masks. -/
theorem masksAreTriedInDescendingOrder : Obligations.MasksAreTriedInDescendingOrder :=
  ⟨by decide, by decide, mem_formatOrder⟩

/-! ## The excluded operand values -/

/-- Op 11 of format 1 is the fixed bits of format 2, and the offset's upper bits are its I and Op (R54). -/
theorem wordMoveShiftedRegister_excluded (offset5 : BitVec 5) (rs rd : RegField) :
    wordMoveShiftedRegister 0b11#2 offset5 rs rd =
      wordAddSubtract (offset5.getLsbD 4) (offset5.getLsbD 3) (offset5.extractLsb' 0 3) rs rd := by
  have upper : 0b000#3 ++ 0b11#2 ++ offset5 =
      0b00011#5 ++ bit (offset5.getLsbD 4) ++ bit (offset5.getLsbD 3) ++ offset5.extractLsb' 0 3 := by
    revert offset5
    decide
  exact congrArg (fun x : BitVec 10 => toHalf (x ++ rs ++ rd)) upper

theorem classify_wordMoveShiftedRegister_excluded (offset5 : BitVec 5) (rs rd : RegField) :
    classify (wordMoveShiftedRegister 0b11#2 offset5 rs rd) = some .addSubtract := by
  rw [wordMoveShiftedRegister_excluded, classify_wordAddSubtract]

/-- Cond 1111 of format 16 is the fixed bits of format 17 (R69). -/
theorem wordConditionalBranch_excluded (soffset8 : BitVec 8) :
    wordConditionalBranch 0b1111#4 soffset8 = wordSoftwareInterrupt soffset8 := rfl

theorem classify_wordConditionalBranch_excluded (soffset8 : BitVec 8) :
    classify (wordConditionalBranch 0b1111#4 soffset8) = some .softwareInterrupt := by
  rw [wordConditionalBranch_excluded, classify_wordSoftwareInterrupt]

/-- Settles O45: each excluded value makes a word of the other format, whose meaning is its classification. -/
theorem excludedOperandValuesAnswerTheOtherFormat :
    Obligations.ExcludedOperandValuesAnswerTheOtherFormat :=
  ⟨fun s offset5 rs rd hs => (Machine.exec_of_encode_thumb rfl s).trans
      (Machine.classifyWord_ok hs (classify_wordMoveShiftedRegister_excluded offset5 rs rd)),
    fun s soffset8 hs => (Machine.exec_of_encode_thumb rfl s).trans
      (Machine.classifyWord_ok hs (classify_wordConditionalBranch_excluded soffset8))⟩

end Sys2Proof
end

section
/-! PROOFS. The two round trips between instructions and requests (R54 to R74), and words of the encoding's
tables. -/

namespace Sys2Proof

open Laws

/-! ## An instruction encoded and decoded -/

/-- Settles O46: one round trip per constructor, from the family DecodeEncode of the laws. -/
theorem decodeOfEncodeIsTheInstruction : Obligations.DecodeOfEncodeIsTheInstruction := by
  intro i
  cases i with
  | moveShiftedRegister => exact DecodeEncode.moveShiftedRegister _ _ _ _
  | addSubtract => exact DecodeEncode.addSubtract _ _ _ _ _
  | moveCompareAddSubtractImmediate => exact DecodeEncode.moveCompareAddSubtractImmediate _ _ _
  | aluOperation => exact DecodeEncode.aluOperation _ _ _
  | hiRegisterOperationsBranchExchange => exact DecodeEncode.hiRegisterOperationsBranchExchange _ _ _ _ _
  | pcRelativeLoad => exact DecodeEncode.pcRelativeLoad _ _
  | loadStoreWithRegisterOffset => exact DecodeEncode.loadStoreWithRegisterOffset _ _ _ _ _
  | loadStoreSignExtendedByteHalfword => exact DecodeEncode.loadStoreSignExtendedByteHalfword _ _ _ _ _
  | loadStoreWithImmediateOffset => exact DecodeEncode.loadStoreWithImmediateOffset _ _ _ _ _
  | loadStoreHalfword => exact DecodeEncode.loadStoreHalfword _ _ _ _
  | spRelativeLoadStore => exact DecodeEncode.spRelativeLoadStore _ _ _
  | loadAddress => exact DecodeEncode.loadAddress _ _ _
  | addOffsetToStackPointer => exact DecodeEncode.addOffsetToStackPointer _ _ _ _
  | pushPopRegisters => exact DecodeEncode.pushPopRegisters _ _ _ _
  | multipleLoadStore => exact DecodeEncode.multipleLoadStore _ _ _
  | conditionalBranch => exact DecodeEncode.conditionalBranch _ _
  | softwareInterrupt => exact DecodeEncode.softwareInterrupt _
  | unconditionalBranch => exact DecodeEncode.unconditionalBranch _ _
  | longBranchWithLink => exact DecodeEncode.longBranchWithLink _ _
  | read => exact DecodeEncode.read _
  | write => exact DecodeEncode.write _ _
  | exportStore => exact DecodeEncode.exportStore
  | importStore => exact DecodeEncode.importStore _
  | label => exact DecodeEncode.label _
  | getMode => exact DecodeEncode.getMode
  | setMode => exact DecodeEncode.setMode _
  | getT => exact DecodeEncode.getT
  | getF => exact DecodeEncode.getF
  | getI => exact DecodeEncode.getI
  | getV => exact DecodeEncode.getV
  | getC => exact DecodeEncode.getC
  | getZ => exact DecodeEncode.getZ
  | getN => exact DecodeEncode.getN
  | setT => exact DecodeEncode.setT _
  | setF => exact DecodeEncode.setF _
  | setI => exact DecodeEncode.setI _
  | setV => exact DecodeEncode.setV _
  | setC => exact DecodeEncode.setC _
  | setZ => exact DecodeEncode.setZ _
  | setN => exact DecodeEncode.setN _
  | classify => exact DecodeEncode.classify _
  | reset => exact DecodeEncode.reset

/-- Settles O49: the decoder, evaluated on each of the nine words. -/
theorem wordsOfTheTablesDecode : Obligations.WordsOfTheTablesDecode :=
  ⟨rfl, rfl, rfl, rfl, rfl, rfl, rfl, rfl, rfl⟩

/-! ## The fields of a THUMB word, put together again -/

/-- `x` is the bits of the word `w` from `start` up. -/
def IsField {n : Nat} (w : Half) (start : Nat) (x : BitVec n) : Prop := w.extractLsb' start n = x

theorem isField_extract (w : Half) (start n : Nat) : IsField w start (w.extractLsb' start n) := rfl

theorem isField_bit (w : Half) (n : Nat) : IsField w n (bit (bitAt w n)) := by
  apply BitVec.eq_of_getLsbD_eq
  intro i hi
  obtain rfl : i = 0 := by omega
  simp [bit, bitAt]

/-- Two fields that adjoin are one field. -/
theorem IsField.append {w : Half} {start n m : Nat} {x : BitVec n} {y : BitVec m}
    (hx : IsField w (start + m) x) (hy : IsField w start y) : IsField w start (x ++ y) := by
  subst hx hy
  exact (BitVec.extractLsb'_append_extractLsb'_eq_extractLsb' rfl).symm

/-- The field that is all 16 bits is the word. -/
theorem IsField.toHalf_eq {w : Half} {n : Nat} {x : BitVec n} (hx : IsField w 0 x) (h : n = 16) :
    toHalf x h = w := by
  subst h
  exact hx.symm.trans BitVec.extractLsb'_eq_self

/-- The constant fields of a format's layout stand in every word the classifier gives that format. -/
theorem isField_fixed {w : Half} {f : InstructionFormat} (h : classify w = some f) {start n : Nat}
    {a : BitVec n} (hs : 8 ≤ start := by decide)
    (ha : ∀ i, i < n → (fixedBits f).1.getLsbD (start - 8 + i) = true ∧
      (fixedBits f).2.getLsbD (start - 8 + i) = a.getLsbD i := by decide) : IsField w start a :=
  DecodeEncode.extract_of_bits fun i hi => by
    obtain ⟨hfixed, hvalue⟩ := ha i hi
    rw [← hvalue, ← fixedBits_of_classify h _ hfixed]
    congr 1
    omega

/-- Every THUMB word is the encoding of what it decodes to: the fields decoded and the format's constant
ones adjoin and are the whole word. -/
theorem encode_decodeThumb (w : Half) : encode (decodeThumb w) = .thumb w := by
  obtain ⟨f, hf⟩ := Option.isSome_iff_exists.mp (classify_isSome w)
  have field := isField_extract w
  have flag := isField_bit w
  cases f <;> simp only [decodeThumb, hf, encode, Request.thumb.injEq]
  case moveShiftedRegister =>
    exact ((((isField_fixed hf).append (field 11 2)).append (field 6 5)).append (field 3 3)).append
      (field 0 3) |>.toHalf_eq rfl
  case addSubtract =>
    exact (((((isField_fixed hf).append (flag 10)).append (flag 9)).append (field 6 3)).append
      (field 3 3)).append (field 0 3) |>.toHalf_eq rfl
  case moveCompareAddSubtractImmediate =>
    have op : IsField w 11 (ImmediateOp.ofCode (w.extractLsb' 11 2)).code := (ImmediateOp.code_ofCode _).symm
    exact (((isField_fixed hf).append op).append (field 8 3)).append (field 0 8) |>.toHalf_eq rfl
  case aluOperation =>
    have op : IsField w 6 (AluOp.ofCode (w.extractLsb' 6 4)).code := (AluOp.code_ofCode _).symm
    exact (((isField_fixed hf).append op).append (field 3 3)).append (field 0 3) |>.toHalf_eq rfl
  case hiRegisterOperationsBranchExchange =>
    have op : IsField w 8 (HiOp.ofCode (w.extractLsb' 8 2)).code := (HiOp.code_ofCode _).symm
    exact (((((isField_fixed hf).append op).append (flag 7)).append (flag 6)).append (field 3 3)).append
      (field 0 3) |>.toHalf_eq rfl
  case pcRelativeLoad =>
    exact ((isField_fixed hf).append (field 8 3)).append (field 0 8) |>.toHalf_eq rfl
  case loadStoreWithRegisterOffset | loadStoreSignExtendedByteHalfword =>
    exact ((((((isField_fixed hf).append (flag 11)).append (flag 10)).append (isField_fixed hf)).append
      (field 6 3)).append (field 3 3)).append (field 0 3) |>.toHalf_eq rfl
  case loadStoreWithImmediateOffset =>
    exact (((((isField_fixed hf).append (flag 12)).append (flag 11)).append (field 6 5)).append
      (field 3 3)).append (field 0 3) |>.toHalf_eq rfl
  case loadStoreHalfword =>
    exact ((((isField_fixed hf).append (flag 11)).append (field 6 5)).append (field 3 3)).append
      (field 0 3) |>.toHalf_eq rfl
  case addOffsetToStackPointer =>
    exact (((((isField_fixed hf).append (flag 11)).append (isField_fixed hf)).append (field 8 2)).append
      (flag 7)).append (field 0 7) |>.toHalf_eq rfl
  case pushPopRegisters =>
    exact (((((isField_fixed hf).append (flag 11)).append (isField_fixed hf)).append (flag 9)).append
      (flag 8)).append (field 0 8) |>.toHalf_eq rfl
  case conditionalBranch =>
    exact ((isField_fixed hf).append (field 8 4)).append (field 0 8) |>.toHalf_eq rfl
  case softwareInterrupt =>
    exact (isField_fixed hf).append (field 0 8) |>.toHalf_eq rfl
  case spRelativeLoadStore | loadAddress | multipleLoadStore =>
    exact (((isField_fixed hf).append (flag 11)).append (field 8 3)).append (field 0 8) |>.toHalf_eq rfl
  case unconditionalBranch | longBranchWithLink =>
    exact ((isField_fixed hf).append (flag 11)).append (field 0 11) |>.toHalf_eq rfl

/-! ## A request decoded and encoded -/

/-- A decoded THUMB word is well formed: an excluded operand value would make the word one of another
format. -/
theorem wf_decodeThumb (w : Half) : (decodeThumb w).wf = true := by
  obtain ⟨f, hf⟩ := Option.isSome_iff_exists.mp (classify_isSome w)
  have hw := encode_decodeThumb w
  cases f <;> simp only [decodeThumb, hf, encode, Request.thumb.injEq, Instr.wf, bne_iff_ne] at hw ⊢
  case moveShiftedRegister =>
    intro hop
    rw [← hw, hop, classify_wordMoveShiftedRegister_excluded] at hf
    cases hf
  case conditionalBranch =>
    intro hcond
    rw [← hw, hcond, classify_wordConditionalBranch_excluded] at hf
    cases hf

section
variable {α : Type} {a : α} {cw : CommandWord} {op : Nat} (hop : (operationCode cw).toNat = op)
include hop

theorem operationCode_eq : operationCode cw = BitVec.ofNat 4 op := by
  rw [← hop, BitVec.ofNat_toNat, BitVec.setWidth_eq]

/-! What a decoding that begins with the check of field A has passed: the command word is its operation code,
the bits in use and zeros. -/

theorem bind_field0_ok {k : BitVec 0 → Except DecodeError α} (h : (fieldA cw 0 >>= k) = .ok a) :
    ∃ x, cw = BitVec.ofNat 4 op ++ 0#8 ∧ k x = .ok a := by
  obtain ⟨x, hx, h⟩ := bind_eq_ok h
  exact ⟨x, (commandWord_of_field0 (operationCode_eq hop) (fieldA_ok hx).1).symm, h⟩

theorem bind_field5_ok {k : BitVec 5 → Except DecodeError α} (h : (fieldA cw 5 >>= k) = .ok a) :
    ∃ x, cw = commandWord (BitVec.ofNat 4 op) x ∧ k x = .ok a := by
  obtain ⟨x, hx, h⟩ := bind_eq_ok h
  obtain ⟨unused, rfl⟩ := fieldA_ok hx
  exact ⟨_, (commandWord_of_field5 (operationCode_eq hop) unused).symm, h⟩

theorem bind_field6_ok {k : BitVec 6 → Except DecodeError α} (h : (fieldA cw 6 >>= k) = .ok a) :
    ∃ x, cw = toCommand (BitVec.ofNat 4 op ++ 0b00#2 ++ bit (x.getLsbD 5) ++ x.extractLsb' 0 5) ∧
      k x = .ok a := by
  obtain ⟨x, hx, h⟩ := bind_eq_ok h
  obtain ⟨unused, rfl⟩ := fieldA_ok hx
  exact ⟨_, (commandWord_of_field6 (operationCode_eq hop) unused).symm, h⟩

end

/-- An accepted command is the encoding of a well-formed instruction: its operation code and its field A
make up the command word, and its data operand is of the one kind the operation takes. -/
theorem encode_of_decodeCommand {cw : CommandWord} {d : DataOperand} {i : Instr}
    (h : decodeCommand cw d = .ok i) : i.wf = true ∧ encode i = .command cw d := by
  unfold decodeCommand at h
  split at h
  next hop => -- READ
    obtain ⟨i, rfl, h⟩ := bind_field5_ok hop h
    obtain ⟨_, hd, h⟩ := bind_eq_ok h
    cases h
    cases noData_ok hd
    exact ⟨rfl, rfl⟩
  next hop => -- WRITE
    obtain ⟨i, rfl, h⟩ := bind_field5_ok hop h
    obtain ⟨v, hd, h⟩ := bind_eq_ok h
    cases h
    cases wordData_ok hd
    exact ⟨rfl, rfl⟩
  next hop => -- EXPORT
    obtain ⟨_, rfl, h⟩ := bind_field0_ok hop h
    obtain ⟨_, hd, h⟩ := bind_eq_ok h
    cases h
    cases noData_ok hd
    exact ⟨rfl, rfl⟩
  next hop => -- IMPORT
    obtain ⟨_, rfl, h⟩ := bind_field0_ok hop h
    obtain ⟨s, hd, h⟩ := bind_eq_ok h
    cases h
    cases wordsData_ok hd
    exact ⟨rfl, rfl⟩
  next hop => -- LABEL
    obtain ⟨i, rfl, h⟩ := bind_field5_ok hop h
    obtain ⟨_, hd, h⟩ := bind_eq_ok h
    cases h
    cases noData_ok hd
    exact ⟨rfl, rfl⟩
  next hop => -- GETMODE
    obtain ⟨_, rfl, h⟩ := bind_field0_ok hop h
    obtain ⟨_, hd, h⟩ := bind_eq_ok h
    cases h
    cases noData_ok hd
    exact ⟨rfl, rfl⟩
  next hop => -- SETMODE
    obtain ⟨m, rfl, h⟩ := bind_field5_ok hop h
    obtain ⟨_, hd, h⟩ := bind_eq_ok h
    obtain ⟨t, ht, h⟩ := bind_eq_ok h
    cases h
    cases noData_ok hd
    cases modeOperand_ok ht
    exact ⟨rfl, rfl⟩
  next hop => -- GETFLAG
    obtain ⟨p, rfl, h⟩ := bind_field5_ok hop h
    obtain ⟨_, hd, h⟩ := bind_eq_ok h
    obtain ⟨b, hb, h⟩ := bind_eq_ok h
    cases h
    cases noData_ok hd
    cases flagOperand_ok hb
    exact (encode_getter b).symm
  next hop => -- SETFLAG
    obtain ⟨x, rfl, h⟩ := bind_field6_ok hop h
    obtain ⟨_, hd, h⟩ := bind_eq_ok h
    obtain ⟨b, hb, h⟩ := bind_eq_ok h
    cases h
    cases noData_ok hd
    rw [flagOperand_ok hb]
    exact (encode_setter b (x.getLsbD 5)).symm
  next hop => -- CLASSIFY
    obtain ⟨_, rfl, h⟩ := bind_field0_ok hop h
    obtain ⟨w, hd, h⟩ := bind_eq_ok h
    cases h
    cases halfData_ok hd
    exact ⟨rfl, rfl⟩
  next hop => -- RESET
    obtain ⟨_, rfl, h⟩ := bind_field0_ok hop h
    obtain ⟨_, hd, h⟩ := bind_eq_ok h
    cases h
    cases noData_ok hd
    exact ⟨rfl, rfl⟩
  next => cases h -- reserved

/-- Settles O47: the two interfaces of R73, a command word and a THUMB word. -/
theorem encodeOfDecodeIsTheRequest : Obligations.EncodeOfDecodeIsTheRequest := by
  intro r i h
  cases r with
  | command cw d => exact encode_of_decodeCommand h
  | thumb w =>
    cases h
    exact ⟨wf_decodeThumb w, encode_decodeThumb w⟩

end Sys2Proof
end

section
/-! PROOFS. What the decoder refuses, and the formats of the words the reference leaves undefined (R76). -/

namespace Sys2Proof

open Laws

/-! ## Refused operands -/

/-- How many bits of field A each operation uses, by operation code (R73, R74). -/
def fieldWidths : List (Nat × Nat) :=
  [(0x0, 5), (0x1, 5), (0x2, 0), (0x3, 0), (0x4, 5), (0x5, 0), (0x6, 5), (0x7, 5), (0x8, 6), (0x9, 0), (0xA, 0)]

/-- Every operation begins with the check of its bits of field A. -/
theorem decodeCommand_fieldA_first {p : Nat × Nat} (hp : p ∈ fieldWidths) {cw : CommandWord}
    (hop : (operationCode cw).toNat = p.1) (d : DataOperand) :
    ∃ k, decodeCommand cw d = fieldA cw p.2 >>= k := by
  unfold decodeCommand
  fin_cases hp <;> rw [hop] <;> exact ⟨_, rfl⟩

theorem decodeCommand_unused {p : Nat × Nat} (hp : p ∈ fieldWidths) {cw : CommandWord} (d : DataOperand)
    (hop : cw.toNat / 256 = p.1) (h : 2 ^ p.2 ≤ cw.toNat % 256) :
    decodeCommand cw d = .error (.unusedFieldBits cw) := by
  obtain ⟨k, hk⟩ := decodeCommand_fieldA_first hp ((operationCode_toNat cw).trans hop) d
  rw [hk, fieldA_error h]
  rfl

theorem decodeCommand_reserved {cw : CommandWord} (d : DataOperand) (h : 0xB00 ≤ cw.toNat) :
    decodeCommand cw d = .error (.reservedOperation (operationCode cw)) := by
  have code := operationCode_toNat cw
  obtain ⟨n, hn⟩ : ∃ n, cw.toNat / 256 = n + 11 := Nat.exists_eq_add_of_le' (by omega)
  rw [hn] at code
  simp only [decodeCommand, code]

theorem modeOperand_error {m : ModeBits} (h : ∀ t : ProcessorMode, m ≠ t.code) :
    modeOperand m = .error (.notAModeCode m) := by
  simp only [modeOperand, ProcessorMode.ofCode_eq_none.mpr h]

theorem flagOperand_error {b : BitVec 5} (h : b ∉ [5#5, 6#5, 7#5, 28#5, 29#5, 30#5, 31#5]) :
    flagOperand b = .error (.notAFlagPosition b) := by
  have no_flag : ∀ b : BitVec 5, b ∉ [5#5, 6#5, 7#5, 28#5, 29#5, 30#5, 31#5] →
      StatusBit.ofPosition b = none := by decide
  simp only [flagOperand, no_flag b h]

/-! ## The operations whose operand is checked -/

theorem decodeCommand_setMode (m : ModeBits) :
    decodeCommand (commandWord 0b0110#4 m) .none = (do return .setMode (← modeOperand m)) := by
  simp only [decodeCommand, DecodeEncode.operationCode_commandWord, DecodeEncode.fieldA_commandWord]
  rfl

theorem decodeCommand_getFlag (b : BitVec 5) :
    decodeCommand (commandWord 0b0111#4 b) .none = (do return (← flagOperand b).getter) := by
  simp only [decodeCommand, DecodeEncode.operationCode_commandWord, DecodeEncode.fieldA_commandWord]
  rfl

/-- SETFLAG's command word for any bit position, a flag's or not (R73). -/
def setFlagCommand (v : Bool) (b : BitVec 5) : CommandWord := toCommand (0b1000#4 ++ 0b00#2 ++ bit v ++ b)

theorem decodeCommand_setFlag (v : Bool) (b : BitVec 5) :
    decodeCommand (setFlagCommand v b) .none = (do return (← flagOperand b).setter v) := by
  have code : operationCode (setFlagCommand v b) = 8#4 := by revert v b; decide
  have field : fieldA (setFlagCommand v b) 6 = .ok (bit v ++ b) := by revert v b; decide
  have position : (bit v ++ b).extractLsb' 0 5 = b := by revert v b; decide
  have value : (bit v ++ b).getLsbD 5 = v := by revert v b; decide
  calc decodeCommand (setFlagCommand v b) .none
    _ = (do return (← flagOperand ((bit v ++ b).extractLsb' 0 5)).setter ((bit v ++ b).getLsbD 5)) := by
      simp only [decodeCommand, code, field]
      rfl
    _ = (do return (← flagOperand b).setter v) := by rw [position, value]

/-! ## The words the reference leaves undefined -/

/-- The ranges of the undefined words, each with the format the classifier gives it (R76). -/
def undefinedWords : List (Nat × Nat × InstructionFormat) :=
  [(0xB100, 0xB3FF, .addOffsetToStackPointer), (0xB600, 0xB7FF, .pushPopRegisters),
    (0xB800, 0xBBFF, .addOffsetToStackPointer), (0xBE00, 0xBFFF, .pushPopRegisters),
    (0xDE00, 0xDEFF, .conditionalBranch), (0xE800, 0xEFFF, .unconditionalBranch)]

/-- The ranges are of whole high bytes, and the high byte alone is classified. -/
theorem classify_undefinedWords {p : Nat × Nat × InstructionFormat} (hp : p ∈ undefinedWords) {w : Half}
    (h : p.1 ≤ w.toNat) (h' : w.toNat ≤ p.2.1) : classify w = some p.2.2 := by
  have high_bytes : ∀ p ∈ undefinedWords, ∀ b : BitVec 8, p.1 / 256 ≤ b.toNat → b.toNat ≤ p.2.1 / 256 →
      classify (b ++ 0#8) = some p.2.2 := by decide
  rw [classify_highByte]
  exact high_bytes p hp _ (by rw [highByte_toNat]; omega) (by rw [highByte_toNat]; omega)

/-- Settles O48: each kind of refusal from the check that raises it, and the undefined words by their high
bytes. -/
theorem malformedCommandsAreRefused : Obligations.MalformedCommandsAreRefused := by
  refine ⟨fun cw d h => decodeCommand_reserved d h, fun m hm => ?_, fun b hb => ⟨?_, ?_, ?_⟩,
    fun p hp cw d hop h => decodeCommand_unused hp d hop h, fun w => ⟨_, rfl⟩,
    fun p hp w h h' => classify_undefinedWords hp h h'⟩
  · have word : ∀ m : ModeBits, 0x600#12 + m.setWidth 12 = commandWord 0b0110#4 m := by decide
    rw [word, decode, decodeCommand_setMode, modeOperand_error hm]
    rfl
  · have word : ∀ b : BitVec 5, 0x700#12 + b.setWidth 12 = commandWord 0b0111#4 b := by decide
    rw [word, decode, decodeCommand_getFlag, flagOperand_error hb]
    rfl
  · have word : ∀ b : BitVec 5, 0x800#12 + b.setWidth 12 = setFlagCommand false b := by decide
    rw [word, decode, decodeCommand_setFlag, flagOperand_error hb]
    rfl
  · have word : ∀ b : BitVec 5, 0x820#12 + b.setWidth 12 = setFlagCommand true b := by decide
    rw [word, decode, decodeCommand_setFlag, flagOperand_error hb]
    rfl

end Sys2Proof
end

section
/-! PROOFS. Register access (R79 to R83): READ, WRITE and LABEL through one redirection and one pair of
errors, EXPORT and IMPORT past both, and the frame of the writing operations. -/

namespace Sys2Proof.Machine

open Sys2Proof

/-! ## What READ, WRITE and LABEL share -/

/-- An index above 16 is the answer whatever the mode, and nothing else changes (R79, R127). -/
theorem exec_outOfRange {s : State} (hs : s.Live) {i : IndexOperand} (h : 16 < i.toNat) :
    exec (.read i) s = .next { s with response := .error (.outOfRange i) } ∧
    (∀ v, exec (.write i v) s = .next { s with response := .error (.outOfRange i) }) ∧
    exec (.label i) s = .next { s with response := .error (.outOfRange i) } := by
  have raised := exec_access_error hs (s.slots.access_outOfRange h)
  rwa [State.raise_nonfatal hs rfl] at raised

/-- With an index in range, an invalid mode field sets the latch, and nothing is written (R79, D3). -/
theorem exec_access_modeInvalid {s : State} (hs : s.Live) {i : IndexOperand} (h : i.toNat ≤ 16)
    (hm : s.ModeInvalid) :
    exec (.read i) s =
      .next { s with faulted := true, response := .error (.invalidMode s.slots.modeBits) } ∧
    (∀ v, exec (.write i v) s =
      .next { s with faulted := true, response := .error (.invalidMode s.slots.modeBits) }) ∧
    exec (.label i) s =
      .next { s with faulted := true, response := .error (.invalidMode s.slots.modeBits) } := by
  have raised := exec_access_error hs (Store.access_invalidMode (Nat.lt_succ_of_le h) hm)
  rwa [State.raise_invalidMode] at raised

/-- A command word of a 5-bit operand is that of the operand 0 plus the operand (R73). -/
theorem commandWord_eq_add (op : BitVec 4) (i : IndexOperand) :
    commandWord op i = commandWord op 0#5 + i.setWidth 12 := by
  revert op i
  decide

/-- Settles O6: the slot of a valid access, the two errors of an invalid one, and the command word. -/
theorem readReturnsTheRedirectedSlot : Obligations.ReadReturnsTheRedirectedSlot := by
  refine ⟨fun s i m h hs hm => exec_read_ok hs h hm, fun s i hs h => (exec_outOfRange hs h).1,
    fun s i hs h hm => (exec_access_modeInvalid hs h hm).1, fun i => ?_⟩
  rw [encode, commandWord_eq_add, show commandWord 0b0000#4 0#5 = 0#12 by decide, BitVec.zero_add]

/-- Settles O7: the store a valid access leaves, slot by slot, the two errors of an invalid one, and the
command word. -/
theorem writeStoresInTheRedirectedSlot : Obligations.WriteStoresInTheRedirectedSlot := by
  refine ⟨fun s i v m h hs hm => ?_, fun s i v hs h => (exec_outOfRange hs h).2.1 v,
    fun s i v hs h hm => (exec_access_modeInvalid hs h hm).2.1 v, fun i v => ?_⟩
  · exact ⟨_, exec_write_ok hs h hm v, fun k => Store.slot_setSlot _ k _ v, hs, rfl, rfl⟩
  · rw [encode, commandWord_eq_add, show commandWord 0b0001#4 0#5 = 0x100#12 by decide]

/-- Settles O14: the two tables of D23 are `plainName` and `bankSuffix`, of which `registerName` is made. -/
theorem labelNamesTheRedirectedRegister : Obligations.LabelNamesTheRedirectedRegister := by
  refine ⟨fun s i m h hs hm name hname suffix hsuffix hmode shown hshown => ?_,
    fun s i hs h => (exec_outOfRange hs h).2.2,
    fun s i hs h hm => (exec_access_modeInvalid hs h hm).2.2, fun i => ?_⟩
  · have plain_names : ∀ k : LogicalIndex, (["r0", "r1", "r2", "r3", "r4", "r5", "r6", "r7", "r8", "r9",
        "r10", "r11", "r12", "SP", "LR", "PC", "CPSR"] : List String)[k.val]? = some (plainName k) := by
      decide
    have bank_suffixes : ∀ p ∈ [(ProcessorMode.user, ""), (.system, ""), (.fiq, "_fiq"), (.svc, "_svc"),
        (.abt, "_abt"), (.irq, "_irq"), (.und, "_und")], p.2 = bankSuffix p.1 := by decide
    have name_eq : name = plainName ⟨i.toNat, h⟩ :=
      Option.some.inj (hname.symm.trans (plain_names ⟨i.toNat, h⟩))
    have suffix_eq : suffix.2 = bankSuffix m := hmode ▸ bank_suffixes suffix hsuffix
    have shown_eq : shown = registerName ⟨i.toNat, h⟩ m := by
      rw [hshown, name_eq, suffix_eq, registerName]
    rw [shown_eq, exec_label_ok hs h hm]
  · rw [encode, commandWord_eq_add, show commandWord 0b0100#4 0#5 = 0x400#12 by decide]

/-! ## EXPORT and IMPORT -/

/-- Settles O12: the snapshot is the store itself. -/
theorem exportReturnsTheWholeStore : Obligations.ExportReturnsTheWholeStore :=
  ⟨fun s hs => ⟨s.slots, exec_exportStore_ok hs, fun _ => rfl⟩, rfl⟩

/-- IMPORT of a store's own snapshot puts that store in place (R38, R82). -/
theorem exec_importStore_toList {s : State} (hs : s.Live) (P : Store) :
    exec (.importStore P.toList) s = .next { s with slots := P, response := .none } :=
  show execImportStore P.toList s = _ from update_ok hs (snapshotStore_toList P)

/-- Settles O13: 37 words slot by slot, another length, the round trip through EXPORT, and the stop while the
latch is 1. -/
theorem importReplacesTheWholeStore : Obligations.ImportReplacesTheWholeStore := by
  refine ⟨fun s w h hs => ?_, fun s w hs h => ?_, fun s t P hs hexport hP => ?_,
    fun s w hs => exec_faulted hs nofun, fun _ => rfl⟩
  · exact ⟨_, exec_importStore_ok hs h, slot_snapshot h, hs, rfl, rfl⟩
  · rw [exec_importStore_error hs h, State.raise_nonfatal hs rfl]
  · rw [exec_exportStore_ok hs] at hexport
    cases hexport
    cases hP
    exact exec_importStore_toList hs s.slots

/-! ## The frame of the writing operations -/

/-- An instruction that raises an error leaves the store (R124, R125). -/
theorem exec_slots_of_raise {j : Instr} {s t : State} {e : BlockError} (h : exec j s = .next t)
    (he : exec j s = .next (s.raise e)) : t.slots = s.slots := by
  rw [he] at h
  cases h
  rfl

/-- WRITE changes no slot but the one its index is redirected to. -/
theorem exec_write_frame {s t : State} {i : IndexOperand} {v : Word} {k : Slot}
    (h : exec (.write i v) s = .next t)
    (hk : ∀ (m : ProcessorMode) (hi : i.toNat < 17), s.InMode m → k ≠ physicalSlot ⟨i.toNat, hi⟩ m) :
    t.slots.slot k = s.slots.slot k := by
  have hs : s.Live := exec_next_live h nofun
  obtain ⟨e, ha⟩ | ⟨hi, m, hm⟩ := s.slots.access_error_or_mode i
  · rw [exec_slots_of_raise h ((exec_access_error hs ha).2.1 v)]
  · rw [exec_write_ok hs hi hm] at h
    cases h
    exact Store.slot_setSlot_other _ v (hk m hi hm)

/-- SETMODE changes no slot but the CPSR and the target's SPSR. -/
theorem exec_setMode_frame {s t : State} {u : ProcessorMode} {k : Slot} (h : exec (.setMode u) s = .next t)
    (hk : k ≠ cpsrSlot) (hu : spsrSlot u ≠ some k) : t.slots.slot k = s.slots.slot k := by
  have hs : s.Live := exec_next_live h nofun
  cases hm : s.slots.mode? with
  | none => rw [exec_slots_of_raise h ((exec_invalidMode hs hm).2.1 u)]
  | some m =>
    rw [exec_setMode_ok hs hm] at h
    cases h
    rw [Store.slot_entered, if_neg hk, if_neg hu]

/-- A setter changes no slot but the CPSR. -/
theorem exec_setter_frame {s t : State} {b : StatusBit} {v : Bool} {k : Slot}
    (h : exec (b.setter v) s = .next t) (hk : k ≠ cpsrSlot) : t.slots.slot k = s.slots.slot k := by
  obtain ⟨-, -, not_reset, -⟩ := setter_ne b v
  have hs : s.Live := exec_next_live h not_reset
  cases hm : s.slots.mode? with
  | none => rw [exec_slots_of_raise h ((exec_invalidMode hs hm).2.2.2 b v)]
  | some m =>
    rw [exec_setter_ok hs hm] at h
    cases h
    exact Store.slot_setSlot_other _ _ hk

/-- Settles O29: the frames of the three kinds of writing operation; the list holds the setters of the seven
bits. -/
theorem writingOperationsChangeOnlyTheirSlots : Obligations.WritingOperationsChangeOnlyTheirSlots := by
  refine ⟨fun s t i v k h hk => exec_write_frame h hk,
    fun s t u k h hk hu => exec_setMode_frame h hk (mt (mem_spsrTable_iff (u, k)).mpr hu),
    fun s t v k hk j hj h => ?_⟩
  have is_setter : j ∈ [StatusBit.t, .f, .i, .v, .c, .z, .n].map (·.setter v) := hj
  obtain ⟨b, -, rfl⟩ := List.mem_map.mp is_setter
  exact exec_setter_frame h hk

end Sys2Proof.Machine
end

section
/-! PROOFS. The status register's view (R84 to R99, R129): GETMODE, SETMODE, the getters and the setters, on
a valid mode field and on an invalid one, and the way from a mode to another and back. -/

namespace Sys2Proof.Machine

open Sys2Proof

/-! ## An invalid mode field -/

/-- Each of the four kinds of status operation sets the latch under an invalid mode field, and nothing is
written (R126, D3, D8). -/
theorem exec_status_modeInvalid {s : State} (hs : s.Live) (hm : s.ModeInvalid) :
    exec .getMode s =
      .next { s with faulted := true, response := .error (.invalidMode s.slots.modeBits) } ∧
    (∀ u, exec (.setMode u) s =
      .next { s with faulted := true, response := .error (.invalidMode s.slots.modeBits) }) ∧
    (∀ b : StatusBit, exec b.getter s =
      .next { s with faulted := true, response := .error (.invalidMode s.slots.modeBits) }) ∧
    (∀ (b : StatusBit) v, exec (b.setter v) s =
      .next { s with faulted := true, response := .error (.invalidMode s.slots.modeBits) }) := by
  have raised := exec_invalidMode hs hm
  rwa [State.raise_invalidMode] at raised

/-! ## GETMODE and SETMODE -/

/-- Settles O15: the mode field is a mode's code or no mode's. -/
theorem getModeReturnsTheDecodedMode : Obligations.GetModeReturnsTheDecodedMode :=
  ⟨fun _ _ hs hcode => exec_getMode_ok hs (Store.mode?_eq_some.mpr hcode),
    fun _ hs hcode => (exec_status_modeInvalid hs (ProcessorMode.ofCode_eq_none.mpr hcode)).1, rfl⟩

/-- Settles O16: the store a mode entry leaves, slot by slot, the error of an invalid mode field, and the
command words. -/
theorem setModeSavesTheStatusAndSwitches : Obligations.SetModeSavesTheStatusAndSwitches := by
  refine ⟨fun s m u hs hm => ?_, fun s u hs hm => (exec_status_modeInvalid hs hm).2.1 u, by decide⟩
  refine ⟨_, exec_setMode_ok hs hm u, fun n => ?_, fun k hk => ?_, Store.mode?_entered _ u, hs, rfl, rfl⟩
  · calc (s.slots.entered u).cpsr.getLsbD n
      _ = (withMode s.slots.cpsr u).getLsbD n := by rw [Store.cpsr_entered]
      _ = if n < 5 then u.code.getLsbD n else s.slots.cpsr.getLsbD n := getLsbD_withMode _ u n
  · calc (s.slots.entered u).slot k
      _ = if spsrSlot u = some k then s.slots.cpsr else s.slots.slot k :=
        (s.slots.slot_entered u k).trans (if_neg hk)
      _ = _ := if_congr (mem_spsrTable_iff (u, k)).symm rfl rfl

/-! ## From a mode to another and back -/

/-- Putting a status word's own mode back, after another has replaced it, restores the word. -/
theorem withMode_withMode_of_modeField {c : Word} {m : ProcessorMode} (h : modeField c = m.code)
    (u : ProcessorMode) : withMode (withMode c u) m = c :=
  BitVec.eq_of_getLsbD_eq fun n _ => by
    rw [getLsbD_withMode]
    split
    · next hn => rw [← h, getLsbD_modeField, decide_eq_true hn, Bool.true_and]
    · next hn => rw [getLsbD_withMode, if_neg hn]

/-- Mode entry leaves every slot a logical index other than the CPSR's is redirected to. -/
theorem Store.slot_entered_physicalSlot (P : Store) (u m : ProcessorMode) {i : LogicalIndex}
    (hi : i ≠ 16) : (P.entered u).slot (physicalSlot i m) = P.slot (physicalSlot i m) := by
  have not_spsr : spsrSlot u ≠ some (physicalSlot i m) := fun e => by
    simpa [physicalSlot_not_spsr] using spsrSlot_isSpsr e
  rw [Store.slot_entered, if_neg (physicalSlot_ne_cpsr hi m), if_neg not_spsr]

/-- Entering a mode and then the old one again leaves every logical register of the old one. -/
theorem Store.slot_entered_entered {P : Store} {m : ProcessorMode} (hm : P.mode? = some m)
    (u : ProcessorMode) (i : LogicalIndex) :
    ((P.entered u).entered m).slot (physicalSlot i m) = P.slot (physicalSlot i m) := by
  by_cases hi : i = 16
  · rw [hi, physicalSlot_cpsr]
    calc ((P.entered u).entered m).cpsr
      _ = withMode (withMode P.cpsr u) m := by rw [Store.cpsr_entered, Store.cpsr_entered]
      _ = P.cpsr := withMode_withMode_of_modeField (Store.mode?_eq_some.mp hm) u
  · rw [Store.slot_entered_physicalSlot _ m m hi, Store.slot_entered_physicalSlot _ u m hi]

/-- SETMODE leaves the block live, in the target's mode, its store the entered one (R85). -/
theorem exec_setMode_entered {s : State} {m : ProcessorMode} (hs : s.Live) (hm : s.InMode m)
    (u : ProcessorMode) :
    ∃ t, exec (.setMode u) s = .next t ∧ t.Live ∧ t.InMode u ∧ t.slots = s.slots.entered u :=
  ⟨_, exec_setMode_ok hs hm u, hs, Store.mode?_entered s.slots u, rfl⟩

/-- Settles O19: both reads are redirected by the mode the round trip begins and ends in. -/
theorem modeRoundTripKeepsEveryRegister : Obligations.ModeRoundTripKeepsEveryRegister := by
  intro s m u i hs hm hi
  have h : i.toNat < 17 := Nat.lt_succ_of_le hi
  obtain ⟨t, ht, t_live, t_mode, t_slots⟩ := exec_setMode_entered hs hm u
  obtain ⟨t', ht', t'_live, t'_mode, t'_slots⟩ := exec_setMode_entered t_live t_mode m
  refine ⟨t, t', _, _, ht, ht', exec_read_ok hs h hm, exec_read_ok t'_live h t'_mode, ?_⟩
  rw [t'_slots, t_slots, Store.slot_entered_entered hm]

/-! ## The getters and the setters -/

/-- Settles O20: the table holds each status bit's getter, position and command word. -/
theorem gettersReadTheirBitOfTheStatus : Obligations.GettersReadTheirBitOfTheStatus := by
  intro p hp
  have is_getter : p ∈ [StatusBit.t, .f, .i, .v, .c, .z, .n].map
    fun b => (b.getter, b.position, getCommand b) := hp
  obtain ⟨b, -, rfl⟩ := List.mem_map.mp is_getter
  exact ⟨fun s m hs hm => exec_getter_ok hs hm b,
    fun s hs hm => (exec_status_modeInvalid hs hm).2.2.1 b, (encode_getter b).1⟩

/-- The value of a setter's command word is its bit 5 (R73). -/
theorem setCommand_eq_ite (b : StatusBit) (v : Bool) :
    setCommand b v = if v then setCommand b false + 0x020#12 else setCommand b false := by
  cases b <;> revert v <;> decide

/-- Settles O21: the table holds each status bit's setter, position and command word for the value 0. -/
theorem settersWriteTheirBitOnly : Obligations.SettersWriteTheirBitOnly := by
  intro v p hp
  have is_setter : p ∈ [StatusBit.t, .f, .i, .v, .c, .z, .n].map
    fun b => (b.setter v, b.position, setCommand b false) := hp
  obtain ⟨b, -, rfl⟩ := List.mem_map.mp is_setter
  refine ⟨fun s m hs hm => ?_, fun s hs hm => (exec_status_modeInvalid hs hm).2.2.2 b v, ?_⟩
  · refine ⟨_, exec_setter_ok hs hm b v, fun n => ?_, fun k hk => Store.slot_setSlot_other _ _ hk, hs, rfl,
      rfl⟩
    calc ((s.slots.setSlot cpsrSlot (withStatusBit s.slots.cpsr b v)).slot cpsrSlot).getLsbD n
      _ = (withStatusBit s.slots.cpsr b v).getLsbD n := by rw [Store.slot_setSlot_same]
      _ = if n = b.position then v else s.slots.cpsr.getLsbD n := getLsbD_withStatusBit _ b v n
  · rw [(encode_setter b v).1, setCommand_eq_ite]

end Sys2Proof.Machine
end

section
/-! PROOFS. The words of each format (R101 to R121): a format's region, its count and its reference pattern are
facts about the 256 high bytes, since the classifier reads nothing else of a word. -/

namespace Sys2Proof

open Machine

/-! ## Regions -/

/-- What R103 to R121 tabulate of a format: its mask, its position in the test order, the ranges of its words,
an example word, and the numbers of the formats whose masks the example satisfies. -/
abbrev FormatRow := InstructionFormat × Half × Nat × List (Nat × Nat) × Half × List Nat

/-- Rows whose ranges are of whole high bytes describe their formats, when their ranges do so for the 256 words
with low byte 0 and the rest of each row, which is about single words, holds. -/
theorem rows_describe_of_high_bytes {rows : List FormatRow}
    (placed : ∀ p ∈ rows, formatMask p.1 = p.2.1 ∧ formatOrder[p.2.2.1 - 1]? = some p.1)
    (aligned : ∀ p ∈ rows, ∀ r ∈ p.2.2.2.1, r.1 % 256 = 0 ∧ r.2 % 256 = 255)
    (high_bytes : ∀ p ∈ rows, ∀ b : BitVec 8, classify (b ++ 0#8) = some p.1 ↔
      ∃ r ∈ p.2.2.2.1, r.1 / 256 ≤ b.toNat ∧ b.toNat ≤ r.2 / 256)
    (examples : ∀ p ∈ rows, classify p.2.2.2.2.1 = some p.1 ∧
      ∀ g ∈ formatOrder, (containsMask p.2.2.2.2.1 (formatMask g) = true ↔ g.number ∈ p.2.2.2.2.2)) :
    ∀ p ∈ rows, formatMask p.1 = p.2.1 ∧ formatOrder[p.2.2.1 - 1]? = some p.1 ∧
      (∀ w : Half, classify w = some p.1 ↔ ∃ r ∈ p.2.2.2.1, r.1 ≤ w.toNat ∧ w.toNat ≤ r.2) ∧
      classify p.2.2.2.2.1 = some p.1 ∧
      ∀ g ∈ formatOrder, (containsMask p.2.2.2.2.1 (formatMask g) = true ↔ g.number ∈ p.2.2.2.2.2) :=
  fun p hp => ⟨(placed p hp).1, (placed p hp).2, classify_region (aligned p hp) (high_bytes p hp),
    examples p hp⟩

/-- Settles O39: ten rows, each checked on the high bytes. -/
theorem regionsOfFormatsOneToTen : Obligations.RegionsOfFormatsOneToTen :=
  rows_describe_of_high_bytes (by decide) (by decide) (by decide) (by decide)

/-- Settles O40: nine rows, each checked on the high bytes. -/
theorem regionsOfFormatsElevenToNineteen : Obligations.RegionsOfFormatsElevenToNineteen :=
  rows_describe_of_high_bytes (by decide) (by decide) (by decide) (by decide)

/-! ## Counts -/

/-- A predicate of the high byte holds of 256 words for each high byte it holds of. -/
theorem count_div_256 (p : Nat → Prop) [DecidablePred p] (k : Nat) :
    Nat.count (fun n => p (n / 256)) (256 * k) = 256 * Nat.count p k := by
  induction k with
  | zero => rfl
  | succ k ih =>
    have block : ∀ j < 256, (256 * k + j) / 256 = k := fun j hj => by omega
    calc Nat.count (fun n => p (n / 256)) (256 * (k + 1))
      _ = 256 * Nat.count p k + Nat.count (fun j => p ((256 * k + j) / 256)) 256 := by
        rw [Nat.mul_succ, Nat.count_add, ih]
      _ = 256 * Nat.count p k + 256 * if p k then 1 else 0 := by
        congr 1
        split
        · next h => exact Nat.count_of_forall fun {j} hj => (block j hj).symm ▸ h
        · next h => exact Nat.count_of_forall_not fun j hj => (block j hj).symm ▸ h
      _ = 256 * Nat.count p (k + 1) := by rw [Nat.count_succ, Nat.mul_add]

/-- A count over `k` blocks of `m` numbers is the sum of the blocks' counts. -/
theorem count_mul (p : Nat → Prop) [DecidablePred p] (m k : Nat) :
    Nat.count p (m * k) = ((List.range k).map fun i => Nat.count (fun j => p (m * i + j)) m).sum := by
  induction k with
  | zero => rfl
  | succ k ih => rw [Nat.mul_succ, Nat.count_add, ih, List.sum_range_succ]

theorem highByte_ofNat (n : Nat) : highByte (BitVec.ofNat 16 n) = BitVec.ofNat 8 (n / 256) := by
  apply BitVec.eq_of_toNat_eq
  rw [highByte_toNat, BitVec.toNat_ofNat, BitVec.toNat_ofNat]
  omega

/-- How many of the 256 high bytes have a format, in 16 blocks of 16. -/
def highByteCount (f : InstructionFormat) : Nat :=
  ((List.range 16).map fun i =>
    Nat.count (fun j => classify (BitVec.ofNat 8 (16 * i + j) ++ 0#8) = some f) 16).sum

/-- Each high byte stands for 256 words. -/
theorem count_classify (f : InstructionFormat) :
    Nat.count (fun n => classify (BitVec.ofNat 16 n) = some f) 65536 = 256 * highByteCount f := by
  simp only [classify_highByte (BitVec.ofNat 16 _), highByte_ofNat]
  calc Nat.count (fun n => classify (BitVec.ofNat 8 (n / 256) ++ 0#8) = some f) (256 * 256)
    _ = 256 * Nat.count (fun b => classify (BitVec.ofNat 8 b ++ 0#8) = some f) (16 * 16) :=
      count_div_256 (fun b => classify (BitVec.ofNat 8 b ++ 0#8) = some f) 256
    _ = 256 * highByteCount f := by rw [count_mul, highByteCount]

/-! ## Reference patterns -/

/-- A field of the high byte is a field of the word. -/
theorem extractLsb'_highByte (w : Half) {i n : Nat} (h : i + n ≤ 8) :
    (highByte w).extractLsb' i n = w.extractLsb' (8 + i) n :=
  BitVec.eq_of_getLsbD_eq fun j hj => by
    simp only [BitVec.getLsbD_extractLsb', getLsbD_highByte, Nat.add_assoc,
      decide_eq_true (show i + j < 8 by omega), Bool.true_and]

theorem highByte_and (v w : Half) : highByte (v &&& w) = highByte v &&& highByte w :=
  BitVec.extractLsb'_and

/-- No reference pattern looks at the low byte, and both excluded cases are of the high byte (R52). -/
theorem classify_of_matchesReference {f : InstructionFormat} {w : Half} (h : matchesReference f w) :
    classify w = some f := by
  have high_bytes : ∀ f, ∀ b : BitVec 8,
      b &&& highByte (referencePattern f).1 = highByte (referencePattern f).2 →
      (f = .moveShiftedRegister → b.extractLsb' 3 2 ≠ 0b11#2) →
      (f = .conditionalBranch → b.extractLsb' 0 4 ≠ 0b1111#4) → classify (b ++ 0#8) = some f := by
    intro f
    cases f <;> decide
  obtain ⟨pattern, not_addSubtract, not_softwareInterrupt⟩ := h
  rw [classify_highByte]
  refine high_bytes f _ ?_ (fun hf => ?_) (fun hf => ?_)
  · rw [← highByte_and, pattern]
  · rw [extractLsb'_highByte w (by decide)]
    exact not_addSubtract hf
  · rw [extractLsb'_highByte w (by decide)]
    exact not_softwareInterrupt hf

/-- Every word contains the empty mask of format 1, so an order that begins with it tries no other (R102). -/
theorem classifyWith_moveShiftedRegister_first (rest : List InstructionFormat) (w : Half) :
    classifyWith { mask := formatMask, order := .moveShiftedRegister :: rest } w =
      some .moveShiftedRegister :=
  List.find?_cons_of_pos (beq_iff_eq.mpr BitVec.and_zero)

/-- Settles O42: the reference patterns, the ascending order, and the order by required bits on three words. -/
theorem classifyAgreesWithTheReferencePatterns : Obligations.ClassifyAgreesWithTheReferencePatterns :=
  ⟨fun _ _ => classify_of_matchesReference, classifyWith_moveShiftedRegister_first _,
    fun _ horder => by subst horder; decide⟩

end Sys2Proof
end

section
/-! PROOFS. What CLASSIFY and the THUMB words answer (R100, R101, R122): the classifier's format of the word, on
every live state. -/

namespace Sys2Proof.Machine

open Sys2Proof

/-! ## CLASSIFY -/

theorem containsMask_iff (w mask : Half) : containsMask w mask = true ↔ w &&& mask = mask := beq_iff_eq

/-- The first contained mask, none before it contained (R100). -/
theorem classifyWith_eq_some {T : FormatTable} {w : Half} {f : InstructionFormat} :
    classifyWith T w = some f ↔ ∃ before after, T.order = before ++ f :: after ∧
      w &&& T.mask f = T.mask f ∧ ∀ g ∈ before, w &&& T.mask g ≠ T.mask g := by
  simp only [classifyWith, List.find?_eq_some_iff_append, Bool.not_eq_true', ← Bool.not_eq_true,
    containsMask_iff]
  constructor
  · rintro ⟨contained, before, after, order, first⟩
    exact ⟨before, after, order, contained, first⟩
  · rintro ⟨before, after, order, contained, first⟩
    exact ⟨contained, before, after, order, first⟩

theorem classifyWith_eq_none {T : FormatTable} {w : Half} :
    classifyWith T w = none ↔ ∀ g ∈ T.order, w &&& T.mask g ≠ T.mask g := by
  simp only [classifyWith, List.find?_eq_none, containsMask_iff, ne_eq]

theorem exists_classify_eq (w : Half) : ∃ f, classify w = some f :=
  Option.isSome_iff_exists.mp (classify_isSome w)

theorem exec_classify_ok {s : State} (hs : s.Live) {w : Half} {f : InstructionFormat}
    (h : classify w = some f) : exec (.classify w) s = .next { s with response := .format f } :=
  show classifyWord w s = _ from classifyWord_ok hs h

/-- Settles O38: the search of the order for any table; for the decided one it finds a format (R101), which is
the answer. -/
theorem classifyReturnsTheFirstContainedMask : Obligations.ClassifyReturnsTheFirstContainedMask := by
  refine ⟨fun T w f => classifyWith_eq_some, fun T w => classifyWith_eq_none, fun s w hs r hr => ?_,
    fun w => rfl⟩
  obtain ⟨f, hf⟩ := exists_classify_eq w
  rw [show classifyWith formatTable w = some f from hf] at hr
  rw [hr, exec_classify_ok hs hf]

/-- Settles O41: a format for every word, hence no `Unclassifiable`, and the counts by high bytes. -/
theorem classifyIsTotalWithTheTabulatedCounts : Obligations.ClassifyIsTotalWithTheTabulatedCounts := by
  refine ⟨fun w => ?_, fun s t w w' h => ?_, fun counts hcounts => ?_⟩
  · obtain ⟨f, hf⟩ := exists_classify_eq w
    exact ⟨f, hf, fun s hs => exec_classify_ok hs hf⟩
  · obtain ⟨-, f, -, rfl⟩ := classifyWord_next (show classifyWord w s = .next t from h)
    nofun
  · have high_bytes : ∀ p ∈ counts, 256 * highByteCount p.1 = p.2 := by
      subst hcounts
      decide
    refine ⟨by subst hcounts; rfl, fun p hp => ?_⟩
    rw [count_classify, high_bytes p hp]

/-! ## THUMB words -/

/-- A port operation, which is what a command encodes, has no format. -/
theorem format?_of_encode_command {i : Instr} {cw : CommandWord} {d : DataOperand}
    (h : encode i = .command cw d) : format? i = none := by
  cases i <;> simp only [encode, reduceCtorEq] at h <;> rfl

/-- An instruction with a format is encoded by a THUMB word. -/
theorem encode_of_format? {i : Instr} (h : (format? i).isSome = true) : ∃ w, encode i = .thumb w := by
  cases hi : encode i with
  | thumb w => exact ⟨w, rfl⟩
  | command cw d =>
    rw [format?_of_encode_command hi] at h
    cases h

/-- A decoded THUMB word is an instruction of the format the classifier gives the word (R54 to R72). -/
theorem format?_decodeThumb (w : Half) : format? (decodeThumb w) = classify w := by
  unfold decodeThumb
  cases classify w with
  | none => rfl
  | some f => cases f <;> rfl

/-- The word of a well-formed instruction classifies as the instruction's own format, since it decodes to
that instruction. -/
theorem classify_of_encode_thumb {i : Instr} (hwf : i.wf = true) {w : Half} (h : encode i = .thumb w) :
    classify w = format? i := by
  have decoded : decodeThumb w = i := by
    have := decodeOfEncodeIsTheInstruction i hwf
    rw [h] at this
    exact Except.ok.inj this
  rw [← decoded, format?_decodeThumb]

/-- Settles O43: both kinds of instruction classify a word, which has one format on every state. -/
theorem classifyIsIndependentOfTheRegisterFile : Obligations.ClassifyIsIndependentOfTheRegisterFile := by
  intro i s s' hs hs' hi
  obtain ⟨w, hw⟩ : ∃ w, ∀ u, exec i u = classifyWord w u := by
    obtain ⟨w, rfl⟩ | hformat := hi
    · exact ⟨w, fun _ => rfl⟩
    · obtain ⟨w, hw⟩ := encode_of_format? hformat
      exact ⟨w, exec_of_encode_thumb hw⟩
  obtain ⟨f, hf⟩ := exists_classify_eq w
  exact ⟨.format f, (hw s).trans (classifyWord_ok hs hf), (hw s').trans (classifyWord_ok hs' hf)⟩

/-- Settles O44: the instruction's meaning is its word's classification. -/
theorem thumbInstructionsAnswerTheirFormat : Obligations.ThumbInstructionsAnswerTheirFormat := by
  intro i f s hformat hwf hs
  obtain ⟨w, hw⟩ := encode_of_format? (Option.isSome_of_mem hformat)
  rw [exec_of_encode_thumb hw, classifyWord_ok hs ((classify_of_encode_thumb hwf hw).trans hformat)]

end Sys2Proof.Machine
end

section
/-! PROOFS. Errors (R123 to R127, R134): what raising one leaves, which operations raise `InvalidMode`, and that
a valid mode field and an operand in range raise none. -/

namespace Sys2Proof.Machine

open Sys2Proof

/-! ## The instructions by what their meaning looks at -/

/-- The operations that decode the mode are the three logical accesses and the four kinds of status
operation (R126). -/
theorem decodesMode_cases {i : Instr} (h : decodesMode i = true) :
    (∃ k, i = .read k ∨ (∃ v, i = .write k v) ∨ i = .label k) ∨
    i = .getMode ∨ (∃ u, i = .setMode u) ∨ (∃ b, i = StatusBit.getter b) ∨
    ∃ b v, i = StatusBit.setter b v := by
  cases i with
  | read k => exact .inl ⟨k, .inl rfl⟩
  | write k v => exact .inl ⟨k, .inr (.inl ⟨v, rfl⟩)⟩
  | label k => exact .inl ⟨k, .inr (.inr rfl)⟩
  | getMode => exact .inr (.inl rfl)
  | setMode u => exact .inr (.inr (.inl ⟨u, rfl⟩))
  | getT => exact .inr (.inr (.inr (.inl ⟨.t, rfl⟩)))
  | getF => exact .inr (.inr (.inr (.inl ⟨.f, rfl⟩)))
  | getI => exact .inr (.inr (.inr (.inl ⟨.i, rfl⟩)))
  | getV => exact .inr (.inr (.inr (.inl ⟨.v, rfl⟩)))
  | getC => exact .inr (.inr (.inr (.inl ⟨.c, rfl⟩)))
  | getZ => exact .inr (.inr (.inr (.inl ⟨.z, rfl⟩)))
  | getN => exact .inr (.inr (.inr (.inl ⟨.n, rfl⟩)))
  | setT v => exact .inr (.inr (.inr (.inr ⟨.t, v, rfl⟩)))
  | setF v => exact .inr (.inr (.inr (.inr ⟨.f, v, rfl⟩)))
  | setI v => exact .inr (.inr (.inr (.inr ⟨.i, v, rfl⟩)))
  | setV v => exact .inr (.inr (.inr (.inr ⟨.v, v, rfl⟩)))
  | setC v => exact .inr (.inr (.inr (.inr ⟨.c, v, rfl⟩)))
  | setZ v => exact .inr (.inr (.inr (.inr ⟨.z, v, rfl⟩)))
  | setN v => exact .inr (.inr (.inr (.inr ⟨.n, v, rfl⟩)))
  | _ => cases h

/-- The instructions that do not decode the mode are RESET, EXPORT, IMPORT and those that classify a word
(R126). -/
theorem not_decodesMode_cases {i : Instr} (h : decodesMode i = false) :
    i = .reset ∨ i = .exportStore ∨ (∃ w, i = .importStore w) ∨
    ∃ w, ∀ s, exec i s = classifyWord w s := by
  cases i with
  | reset => exact .inl rfl
  | exportStore => exact .inr (.inl rfl)
  | importStore w => exact .inr (.inr (.inl ⟨w, rfl⟩))
  | read | write | label | getMode | setMode | getT | getF | getI | getV | getC | getZ | getN | setT
  | setF | setI | setV | setC | setZ | setN => cases h
  | _ => exact .inr (.inr (.inr ⟨_, fun _ => rfl⟩))

/-! ## What an error leaves -/

/-- An instruction that answers an error has raised it on a live state, and has done nothing else
(R124, R125). -/
theorem exec_error {i : Instr} {s t : State} {e : BlockError} (h : exec i s = .next t)
    (he : t.response = .error e) : s.Live ∧ e.IsOf s.slots ∧ t = s.raise e := by
  obtain ⟨-, rfl⟩ | ⟨hs, ⟨e', he', rfl⟩ | ⟨r, hr, rfl⟩ | ⟨k, v, m, hk, -, -, rfl⟩ | ⟨w, hw, -, rfl⟩ |
    ⟨u, m, -, -, rfl⟩ | ⟨b, v, m, -, -, rfl⟩⟩ := exec_next h
  · cases he
  · cases he
    exact ⟨hs, he', rfl⟩
  · exact absurd he (hr e)
  all_goals cases he

/-- Settles O24: a raised error that is not `InvalidMode` is not fatal. -/
theorem nonFatalErrorLeavesTheState : Obligations.NonFatalErrorLeavesTheState := by
  intro i s t e h he hne
  obtain ⟨hs, -, rfl⟩ := exec_error h he
  have not_fatal : e.fatal = false :=
    Bool.eq_false_iff.mpr fun hf => (e.fatal_iff.mp hf).elim hne
  exact ⟨rfl, by rw [State.raise_faulted, hs, not_fatal, Bool.false_or], rfl⟩

/-! ## Which errors an operation raises -/

/-- IMPORT raises the length error alone (R127). -/
theorem exec_importStore_response_error {s t : State} {w : List Word} {e : BlockError}
    (h : exec (.importStore w) s = .next t) (he : t.response = .error e) :
    e = .snapshotSizeMismatch w.length := by
  have hs : s.Live := exec_next_live h nofun
  by_cases hw : w.length = 37
  · rw [exec_importStore_ok hs hw] at h
    cases h
    cases he
  · rw [exec_importStore_error hs hw] at h
    cases h
    cases he
    rfl

/-- A classification raises no error, since every word has a format (R101). -/
theorem classifyWord_response_ne_error {s t : State} {w : Half} (h : classifyWord w s = .next t)
    (e : BlockError) : t.response ≠ .error e := by
  obtain ⟨-, f, -, rfl⟩ := classifyWord_next h
  nofun

/-- SETMODE, a getter and a setter complete without error under a valid mode field. -/
theorem exec_status_completes {s : State} (hs : s.Live) {m : ProcessorMode} (hm : s.InMode m) {j : Instr}
    (hj : (∃ u, j = .setMode u) ∨ (∃ b, j = StatusBit.getter b) ∨ ∃ b v, j = StatusBit.setter b v) :
    ∃ t, exec j s = .next t ∧ t.faulted = false ∧ ∀ e, t.response ≠ .error e := by
  obtain ⟨u, rfl⟩ | ⟨b, rfl⟩ | ⟨b, v, rfl⟩ := hj
  · exact ⟨_, exec_setMode_ok hs hm u, hs, nofun⟩
  · exact ⟨_, exec_getter_ok hs hm b, hs, nofun⟩
  · exact ⟨_, exec_setter_ok hs hm b v, hs, nofun⟩

/-- Settles O23: each decoding operation on an invalid mode field, and each other instruction's answers. -/
theorem invalidModeIsRaisedByEveryDecodingOperation :
    Obligations.InvalidModeIsRaisedByEveryDecodingOperation := by
  refine ⟨fun i s hs hm hi hrange => ?_, fun i s t b hi h he => ?_⟩
  · obtain ⟨k, hk⟩ | hstatus := decodesMode_cases hi
    · have k_le : k.toNat ≤ 16 := by
        obtain rfl | ⟨v, rfl⟩ | rfl := hk <;> exact of_decide_eq_true hrange
      obtain ⟨read, write, label⟩ := exec_access_modeInvalid hs k_le hm
      obtain rfl | ⟨v, rfl⟩ | rfl := hk
      · exact read
      · exact write v
      · exact label
    · obtain ⟨getMode, setMode, getter, setter⟩ := exec_status_modeInvalid hs hm
      obtain rfl | ⟨u, rfl⟩ | ⟨b, rfl⟩ | ⟨b, v, rfl⟩ := hstatus
      · exact getMode
      · exact setMode u
      · exact getter b
      · exact setter b v
  · obtain rfl | rfl | ⟨w, rfl⟩ | ⟨w, hw⟩ := not_decodesMode_cases hi
    · cases h
      cases he
    · rw [exec_exportStore_ok (exec_next_live h nofun)] at h
      cases h
      cases he
    · cases exec_importStore_response_error h he
    · exact classifyWord_response_ne_error ((hw s).symm.trans h) _ he

/-- Settles O26: a refusal comes from the decoder alone, an index above 16 is answered in every mode, and the
other operations' errors are those of their meanings. -/
theorem errorsHaveTheStatedPriority : Obligations.ErrorsHaveTheStatedPriority := by
  refine ⟨fun s r rest e hp hd => step_of_decode_error hp hd, fun s i hs _ hi j hj => ?_,
    fun s t w e h he => exec_importStore_response_error h he, fun s t w e h he => ?_,
    fun s t j e hj h he => ?_⟩
  · obtain ⟨read, write, label⟩ := exec_outOfRange hs hi
    obtain rfl | ⟨v, rfl⟩ | rfl := hj
    · exact read
    · exact write v
    · exact label
  · exact absurd he (classifyWord_response_ne_error (show classifyWord w s = .next t from h) e)
  · obtain ⟨hs, -, -⟩ := exec_error h he
    cases hm : s.slots.mode? with
    | none =>
      obtain ⟨-, setMode, getter, setter⟩ := exec_invalidMode hs hm
      have raised : exec j s = .next (s.raise (.invalidMode s.slots.modeBits)) := by
        obtain ⟨u, rfl⟩ | ⟨b, rfl⟩ | ⟨b, v, rfl⟩ := hj
        · exact setMode u
        · exact getter b
        · exact setter b v
      rw [raised] at h
      cases h
      exact ⟨_, (Response.error.inj he).symm⟩
    | some m =>
      obtain ⟨t', ht', -, no_error⟩ := exec_status_completes hs hm hj
      rw [ht'] at h
      cases h
      exact absurd he (no_error e)

/-- Settles O27: each kind of instruction on a live state with a valid mode field. -/
theorem everyOperationIsAllowedInEveryMode : Obligations.EveryOperationIsAllowedInEveryMode := by
  intro i s m hs hm hrange
  cases hi : decodesMode i with
  | true =>
    obtain ⟨k, hk⟩ | rfl | hstatus := decodesMode_cases hi
    · have k_lt : k.toNat < 17 := by
        obtain rfl | ⟨v, rfl⟩ | rfl := hk <;> exact Nat.lt_succ_of_le (of_decide_eq_true hrange)
      obtain rfl | ⟨v, rfl⟩ | rfl := hk
      · exact ⟨_, exec_read_ok hs k_lt hm, hs, nofun⟩
      · exact ⟨_, exec_write_ok hs k_lt hm v, hs, nofun⟩
      · exact ⟨_, exec_label_ok hs k_lt hm, hs, nofun⟩
    · exact ⟨_, exec_getMode_ok hs hm, hs, nofun⟩
    · exact exec_status_completes hs hm hstatus
  | false =>
    obtain rfl | rfl | ⟨w, rfl⟩ | ⟨w, hw⟩ := not_decodesMode_cases hi
    · exact ⟨_, rfl, rfl, nofun⟩
    · exact ⟨_, exec_exportStore_ok hs, hs, nofun⟩
    · exact ⟨_, exec_importStore_ok hs (beq_iff_eq.mp hrange), hs, nofun⟩
    · obtain ⟨f, hf⟩ := exists_classify_eq w
      exact ⟨_, (hw s).trans (classifyWord_ok hs hf), hs, nofun⟩

end Sys2Proof.Machine
end

section
/-! PROOFS. The writers of the mode field (R125, R133), and mode entry as the taking of an exception: re-entry
and the return by EXPORT and WRITE(16) (R130). -/

namespace Sys2Proof.Machine

open Sys2Proof

/-! ## The writers of the mode field -/

theorem Store.mode?_reset : Store.reset.mode? = some .user := by decide

/-- WRITE(16, v) stores v in the CPSR, unchecked, and nothing elsewhere (R80, D5). -/
theorem exec_write_cpsr_ok {s : State} (hs : s.Live) {m : ProcessorMode} (hm : s.InMode m) (v : Word) :
    exec (.write 16#5 v) s =
      .next { s with slots := s.slots.setSlot cpsrSlot v, response := .none } := by
  have slot : physicalSlot ⟨(16#5).toNat, by decide⟩ m = cpsrSlot := physicalSlot_cpsr m
  rw [exec_write_ok hs (by decide) hm v, slot]

/-- No instruction but SETMODE, WRITE(16, v), IMPORT and RESET changes the mode field (R133). -/
theorem exec_keeps_modeBits {i : Instr} {s t : State} (h : exec i s = .next t)
    (hset : ∀ u, i ≠ .setMode u) (hwrite : ∀ v, i ≠ .write 16#5 v) (himport : ∀ w, i ≠ .importStore w)
    (hreset : i ≠ .reset) : t.slots.modeBits = s.slots.modeBits := by
  obtain ⟨rfl, -⟩ | ⟨-, ⟨e, -, rfl⟩ | ⟨r, -, rfl⟩ | ⟨k, v, m, hk, rfl, -, rfl⟩ | ⟨w, hw, rfl, -⟩ |
    ⟨u, m, rfl, -⟩ | ⟨b, v, m, -, -, rfl⟩⟩ := exec_next h
  · exact absurd rfl hreset
  · rfl
  · rfl
  · have hk16 : k.toNat ≠ 16 := fun e => hwrite v (congrArg (Instr.write · v) (BitVec.eq_of_toNat_eq e))
    exact Store.modeBits_eq (Store.slot_setSlot_other _ v (physicalSlot_toNat_ne_cpsr hk hk16 m).symm)
  · exact absurd rfl (himport w)
  · exact absurd rfl (hset u)
  · calc modeField ((s.slots.setSlot cpsrSlot (withStatusBit s.slots.cpsr b v)).slot cpsrSlot)
      _ = modeField (withStatusBit s.slots.cpsr b v) := by rw [Store.slot_setSlot_same]
      _ = modeField s.slots.cpsr := modeField_withStatusBit _ b v

/-- Settles O31: what keeps the mode field, and the mode each of the four operations names. -/
theorem modeChangesOnlyByFourOperations : Obligations.ModeChangesOnlyByFourOperations := by
  refine ⟨fun i s t h hset hwrite himport hreset => exec_keeps_modeBits h hset hwrite himport hreset,
    fun s m u hs hm => ?_, fun s m v hs hm => ?_, fun s w hw hs => ?_,
    fun s => ⟨_, rfl, Store.mode?_reset⟩⟩
  · exact ⟨_, exec_setMode_ok hs hm u, Store.mode?_eq_some.mp (Store.mode?_entered _ u),
      fun k hk => Store.slot_entered_own_spsr _ ((mem_spsrTable_iff (u, k)).mp hk)⟩
  · refine ⟨_, exec_write_cpsr_ok hs hm v, congrArg modeField (Store.slot_setSlot_same _ _ v),
      fun k hk => Store.slot_setSlot_other _ v ?_⟩
    rintro rfl
    exact absurd hk (by decide)
  · exact ⟨_, exec_importStore_ok hs hw, congrArg modeField (slot_snapshot hw cpsrSlot)⟩

/-- No instruction but WRITE(16, v) and IMPORT leaves an invalid mode field where it found a valid one
(R125). -/
theorem exec_keeps_mode_valid {i : Instr} {s t : State} {m : ProcessorMode} (hm : s.InMode m)
    (h : exec i s = .next t) (hwrite : ∀ v, i ≠ .write 16#5 v) (himport : ∀ w, i ≠ .importStore w) :
    ∃ m', t.InMode m' := by
  by_cases hreset : i = .reset
  · subst hreset
    cases h
    exact ⟨.user, Store.mode?_reset⟩
  by_cases hset : ∃ u, i = .setMode u
  · obtain ⟨u, rfl⟩ := hset
    rw [exec_setMode_ok (exec_next_live h nofun) hm] at h
    cases h
    exact ⟨u, Store.mode?_entered _ u⟩
  · have kept := exec_keeps_modeBits h (not_exists.mp hset) hwrite himport hreset
    exact ⟨m, (congrArg ProcessorMode.ofCode kept).trans hm⟩

/-- Settles O25: the state after a raised `InvalidMode` is written out by `exec_error`, and the mode field's
validity is kept by `exec_keeps_mode_valid`. -/
theorem invalidModeIsFatalAndWritesNothing : Obligations.InvalidModeIsFatalAndWritesNothing := by
  refine ⟨fun i s t b h he => ?_,
    fun i s t m hm h hwrite himport => exec_keeps_mode_valid hm h hwrite himport⟩
  obtain ⟨-, he', rfl⟩ := exec_error h he
  obtain ⟨bits, invalid⟩ := he' b rfl
  rw [State.raise_invalidMode]
  exact ⟨rfl, bits, invalid, fun j hj => exec_faulted rfl hj⟩

/-! ## Mode entry as the taking of an exception -/

/-- Replacing the mode of a status word by its own mode changes nothing. -/
theorem withMode_of_modeField {c : Word} {m : ProcessorMode} (h : modeField c = m.code) :
    withMode c m = c :=
  BitVec.eq_of_getLsbD_eq fun n _ => by
    rw [getLsbD_withMode, ← h, getLsbD_modeField]
    split
    · next hn => rw [decide_eq_true hn, Bool.true_and]
    · rfl

/-- Entering the mode already in effect changes no slot but its SPSR (R130, D7). -/
theorem Store.slot_entered_of_mode {P : Store} {m : ProcessorMode} (hm : P.mode? = some m) {k : Slot}
    (hk : spsrSlot m ≠ some k) : (P.entered m).slot k = P.slot k := by
  rw [Store.slot_entered, if_neg hk]
  split
  · next h => rw [h, withMode_of_modeField (Store.mode?_eq_some.mp hm)]; rfl
  · rfl

/-- Settles O17: the second entry finds the CPSR the first one left, which codes the entered mode. -/
theorem reentryOverwritesTheSavedStatus : Obligations.ReentryOverwritesTheSavedStatus := by
  rintro s m _ hs hm ⟨u, spsr⟩ hp rfl
  have hspsr : spsrSlot u = some spsr := (mem_spsrTable_iff (u, spsr)).mp hp
  obtain ⟨t, ht, t_live, t_mode, -⟩ := exec_setMode_entered hs hm u
  obtain ⟨t', ht', -, -, t'_slots⟩ := exec_setMode_entered t_live t_mode u
  have saved : t'.slots.slot spsr = t.slots.cpsr := by
    rw [t'_slots, Store.slot_entered_own_spsr _ hspsr]
  refine ⟨t, t', ht, ht', saved, (congrArg modeField saved).trans (Store.mode?_eq_some.mp t_mode),
    fun k hk => ?_⟩
  have not_spsr : spsrSlot u ≠ some k := fun e => hk (Option.some.inj (e.symm.trans hspsr))
  rw [t'_slots, Store.slot_entered_of_mode t_mode not_spsr]

/-- Settles O18: mode entry left the old CPSR in the SPSR, which the snapshot holds, and WRITE(16) stores it
in the CPSR and nowhere else. -/
theorem savedStatusIsRestoredByExportAndRawWrite :
    Obligations.SavedStatusIsRestoredByExportAndRawWrite := by
  rintro s m _ hs hm ⟨u, spsr⟩ hp rfl
  have hspsr : spsrSlot u = some spsr := (mem_spsrTable_iff (u, spsr)).mp hp
  obtain ⟨t, ht, t_live, t_mode, t_slots⟩ := exec_setMode_entered hs hm u
  have saved : t.slots.slot spsr = s.slots.cpsr := by
    rw [t_slots, Store.slot_entered_own_spsr _ hspsr]
  have saved_mode : modeField (t.slots.slot spsr) = m.code :=
    (congrArg modeField saved).trans (Store.mode?_eq_some.mp hm)
  exact ⟨t, _, t.slots, _, ht, exec_exportStore_ok t_live, rfl, exec_write_cpsr_ok t_live t_mode _,
    (Store.slot_setSlot_same _ _ _).trans saved, Store.mode?_setSlot_cpsr _ saved_mode,
    fun k hk => Store.slot_setSlot_other _ _ hk⟩

end Sys2Proof.Machine
end

section
/-! PROOFS. RESET (R139) and the access that follows a mode change (R144). -/

namespace Sys2Proof.Machine

open Sys2Proof

/-! ## Reset -/

/-- Settles O2: RESET's answer from any state, and the stop of every other instruction while the latch is 1. -/
theorem resetReturnsEveryStateToTheDefault : Obligations.ResetReturnsEveryStateToTheDefault := by
  refine ⟨fun s => ⟨_, rfl, Store.slot_reset, rfl, rfl, rfl⟩, fun i s t hs h => ?_, by decide⟩
  by_contra hi
  rw [exec_faulted hs hi] at h
  cases h

/-! ## The access after a mode change -/

/-- WRITE(16, v) with a mode's code in v leaves the block live, in that mode, and every slot a logical index
other than the CPSR's is redirected to as it was. -/
theorem exec_write_cpsr_mode {s : State} (hs : s.Live) {m u : ProcessorMode} (hm : s.InMode m) {v : Word}
    (hv : modeField v = u.code) :
    ∃ t, exec (.write 16#5 v) s = .next t ∧ t.Live ∧ t.InMode u ∧
      ∀ i : LogicalIndex, i ≠ 16 → t.slots.slot (physicalSlot i u) = s.slots.slot (physicalSlot i u) :=
  ⟨_, exec_write_cpsr_ok hs hm v, hs, Store.mode?_setSlot_cpsr _ hv,
    fun _ hi => Store.slot_setSlot_other _ v (physicalSlot_ne_cpsr hi u)⟩

/-- IMPORT of words whose CPSR has a mode's code leaves the block live and in that mode, whatever mode field it
found. -/
theorem exec_importStore_mode {s : State} (hs : s.Live) {u : ProcessorMode} {w : List Word}
    (hw : w.length = 37) (hcode : modeField w[16] = u.code) :
    ∃ t, exec (.importStore w) s = .next t ∧ t.Live ∧ t.InMode u ∧
      ∀ k : Slot, t.slots.slot k = w[k.val]'(by omega) :=
  ⟨_, exec_importStore_ok hs hw, hs,
    Store.mode?_eq_some.mpr ((congrArg modeField (slot_snapshot hw cpsrSlot)).trans hcode),
    slot_snapshot hw⟩

/-- Settles O32: each of the three operations leaves the new mode in effect, and READ goes by the mode in
effect. -/
theorem modeChangeTakesEffectAtTheNextAccess : Obligations.ModeChangeTakesEffectAtTheNextAccess := by
  have not_cpsr (i : IndexOperand) (h : i.toNat < 16) : (⟨i.toNat, by omega⟩ : LogicalIndex) ≠ 16 :=
    fun e => h.ne (congrArg Fin.val e)
  refine ⟨fun s m u i h hs hm => ?_, fun s m u v i h hs hm hv => ?_, fun s u w hw i h hs hcode => ?_⟩
  · obtain ⟨t, ht, t_live, t_mode, t_slots⟩ := exec_setMode_entered hs hm u
    refine ⟨t, _, ht, t_mode, exec_read_ok t_live (by omega) t_mode, ?_⟩
    rw [t_slots, Store.slot_entered_physicalSlot _ u u (not_cpsr i h)]
  · obtain ⟨t, ht, t_live, t_mode, kept⟩ := exec_write_cpsr_mode hs hm hv
    exact ⟨t, _, ht, t_mode, exec_read_ok t_live (by omega) t_mode,
      congrArg Response.word (kept _ (not_cpsr i h))⟩
  · obtain ⟨t, ht, t_live, t_mode, t_slots⟩ := exec_importStore_mode hs hw hcode
    exact ⟨t, _, ht, t_mode, exec_read_ok t_live h t_mode, congrArg Response.word (t_slots _)⟩

end Sys2Proof.Machine
end
